-- ==== Sys2Proof/Word.lean ====
section
/-!
DEFINITION. The word types of the DaHo.Chip8 core (00_scope.md R6 to R8): what the spec treats as bits.
-/

namespace Sys2Proof

/-- `VLEN` = 8 bits: a V register, a memory cell, a timer (R6). -/
abbrev Byte := BitVec 8

/-- 16 bits: I, PC, a stack entry, an opcode (R6, R70). -/
abbrev Word := BitVec 16

/-- A 4-bit opcode field: X, Y or N (R13). -/
abbrev Nib := BitVec 4

/-- The 12-bit opcode field NNN (R13). -/
abbrev Addr := BitVec 12

end Sys2Proof
end

