-- ==== Sys2Proof/Syntax.lean ====
section
/-!
DEFINITION. The instruction set: one constructor per row of spec/opcode_table.json (30_encoding.md table of rule
R74), in the table's order. An operand `u` is a field the decoder and the handler ignore (R79): it is kept so that
an instruction stands for exactly one word, since a fatal condition records the word fetched (R220; log 8).
-/

namespace Sys2Proof

/-- The 34 instructions (R74). -/
inductive Instr where
  /-- 0uE0 `CLS` (R181). -/
  | cls (u : Nib)
  /-- 0uEE `RET` (R112). -/
  | ret (u : Nib)
  /-- 1NNN `JP NNN` (R110). -/
  | jp (nnn : Addr)
  /-- 2NNN `CALL NNN` (R111). -/
  | call (nnn : Addr)
  /-- 3XNN `SE Vx,NN` (R120). -/
  | seImm (x : Nib) (nn : Byte)
  /-- 4XNN `SNE Vx,NN` (R121). -/
  | sneImm (x : Nib) (nn : Byte)
  /-- 5XYu `SE Vx,Vy` (R122). -/
  | seReg (x y u : Nib)
  /-- 6XNN `LD Vx,NN` (R130). -/
  | ldImm (x : Nib) (nn : Byte)
  /-- 7XNN `ADD Vx,NN` (R131). -/
  | addImm (x : Nib) (nn : Byte)
  /-- 8XY0 `LD Vx,Vy` (R141). -/
  | ldReg (x y : Nib)
  /-- 8XY1 `OR Vx,Vy` (R142). -/
  | orReg (x y : Nib)
  /-- 8XY2 `AND Vx,Vy` (R143). -/
  | andReg (x y : Nib)
  /-- 8XY3 `XOR Vx,Vy` (R144). -/
  | xorReg (x y : Nib)
  /-- 8XY4 `ADD Vx,Vy` (R145). -/
  | addReg (x y : Nib)
  /-- 8XY5 `SUB Vx,Vy` (R146). -/
  | subReg (x y : Nib)
  /-- 8Xu6 `SHR Vx` (R147). -/
  | shr (x u : Nib)
  /-- 8XY7 `SUBN Vx,Vy` (R148). -/
  | subnReg (x y : Nib)
  /-- 8XuE `SHL Vx` (R149). -/
  | shl (x u : Nib)
  /-- 9XYu `SNE Vx,Vy` (R123). -/
  | sneReg (x y u : Nib)
  /-- ANNN `LD I,NNN` (R160). -/
  | ldI (nnn : Addr)
  /-- BNNN `JP V0,NNN` (R113). -/
  | jpV0 (nnn : Addr)
  /-- CXNN `RND Vx,NN` (R170). -/
  | rnd (x : Nib) (nn : Byte)
  /-- DXYN `DRW Vx,Vy,N` (R180). -/
  | drw (x y n : Nib)
  /-- EX9E `SKP Vx` (R190). -/
  | skp (x : Nib)
  /-- EXA1 `SKNP Vx` (R191). -/
  | sknp (x : Nib)
  /-- FX07 `LD Vx,DT` (R200). -/
  | ldVxDt (x : Nib)
  /-- FX0A `LD Vx,K` (R192). -/
  | ldVxK (x : Nib)
  /-- FX15 `LD DT,Vx` (R201). -/
  | ldDtVx (x : Nib)
  /-- FX18 `LD ST,Vx` (R202). -/
  | ldStVx (x : Nib)
  /-- FX1E `ADD I,Vx` (R161). -/
  | addI (x : Nib)
  /-- FX29 `LD F,Vx` (R204). -/
  | ldF (x : Nib)
  /-- FX33 `LD B,Vx` (R203). -/
  | ldB (x : Nib)
  /-- FX55 `LD [I],Vx` (R205). -/
  | storeRegs (x : Nib)
  /-- FX65 `LD Vx,[I]` (R206). -/
  | loadRegs (x : Nib)
  deriving DecidableEq, Repr

end Sys2Proof
end

