-- ==== Sys2Proof/WellFormed.lean ====
section
/-!
DEFINITION. Well-formed instructions: the canonical spellings of 30_encoding.md R79. Operand ranges need no check,
since each operand's type has the width of its field (R72). A form that is not canonical is still a legal
instruction of this hardware: the decoder accepts it and it runs (decision D3), so no meaning and no statement of
this model asks for well-formedness except to speak of canonical words.
-/

namespace Sys2Proof

/-- An instruction as an assembler writes it: the ignored field zero in 00E0, 00EE, 5XY0 and 9XY0 (R79). For the
shifts "assemblers conventionally emit any Y", so every value of their ignored field is well-formed. -/
def Instr.wellFormed : Instr → Bool
  | .cls u => u == 0
  | .ret u => u == 0
  | .jp _ => true
  | .call _ => true
  | .seImm _ _ => true
  | .sneImm _ _ => true
  | .seReg _ _ u => u == 0
  | .ldImm _ _ => true
  | .addImm _ _ => true
  | .ldReg _ _ => true
  | .orReg _ _ => true
  | .andReg _ _ => true
  | .xorReg _ _ => true
  | .addReg _ _ => true
  | .subReg _ _ => true
  | .shr _ _ => true
  | .subnReg _ _ => true
  | .shl _ _ => true
  | .sneReg _ _ u => u == 0
  | .ldI _ => true
  | .jpV0 _ => true
  | .rnd _ _ => true
  | .drw _ _ _ => true
  | .skp _ => true
  | .sknp _ => true
  | .ldVxDt _ => true
  | .ldVxK _ => true
  | .ldDtVx _ => true
  | .ldStVx _ => true
  | .addI _ => true
  | .ldF _ => true
  | .ldB _ => true
  | .storeRegs _ => true
  | .loadRegs _ => true

end Sys2Proof
end

