-- ==== Sys2Proof/Decode.lean ====
section
/-!
DEFINITION. The decoder (30_encoding.md R72 to R82), total on any bytes and rejecting by name, and after it the
encoder, written from the same table (R74).
-/

namespace Sys2Proof

/-- `P = op[15:12]`, the primary dispatch key (R72). -/
def fieldP (op : Word) : Nib := op.extractLsb' 12 4

/-- `X = op[11:8]` (R72). -/
def fieldX (op : Word) : Nib := op.extractLsb' 8 4

/-- `Y = op[7:4]` (R72). -/
def fieldY (op : Word) : Nib := op.extractLsb' 4 4

/-- `N = op[3:0]` (R72). -/
def fieldN (op : Word) : Nib := op.extractLsb' 0 4

/-- `NN = op[7:0]` (R72). -/
def fieldNN (op : Word) : Byte := op.extractLsb' 0 8

/-- `NNN = op[11:0]` (R72). -/
def fieldNNN (op : Word) : Addr := op.extractLsb' 0 12

/-- Group P = 0x0, keyed by the low byte (R75). -/
def decodeGroup0 (op : Word) : Option Instr :=
  match fieldNN op with
  | 0xE0#8 => some (.cls (fieldX op))
  | 0xEE#8 => some (.ret (fieldX op))
  | _ => none

/-- Family P = 0x8, keyed by the low nibble (R77). -/
def decodeGroup8 (op : Word) : Option Instr :=
  match fieldN op with
  | 0x0#4 => some (.ldReg (fieldX op) (fieldY op))
  | 0x1#4 => some (.orReg (fieldX op) (fieldY op))
  | 0x2#4 => some (.andReg (fieldX op) (fieldY op))
  | 0x3#4 => some (.xorReg (fieldX op) (fieldY op))
  | 0x4#4 => some (.addReg (fieldX op) (fieldY op))
  | 0x5#4 => some (.subReg (fieldX op) (fieldY op))
  | 0x6#4 => some (.shr (fieldX op) (fieldY op))
  | 0x7#4 => some (.subnReg (fieldX op) (fieldY op))
  | 0xE#4 => some (.shl (fieldX op) (fieldY op))
  | _ => none

/-- Group P = 0xE, keyed by the low byte (R78). -/
def decodeGroupE (op : Word) : Option Instr :=
  match fieldNN op with
  | 0x9E#8 => some (.skp (fieldX op))
  | 0xA1#8 => some (.sknp (fieldX op))
  | _ => none

/-- Group P = 0xF, keyed by the low byte (R76). -/
def decodeGroupF (op : Word) : Option Instr :=
  match fieldNN op with
  | 0x07#8 => some (.ldVxDt (fieldX op))
  | 0x0A#8 => some (.ldVxK (fieldX op))
  | 0x15#8 => some (.ldDtVx (fieldX op))
  | 0x18#8 => some (.ldStVx (fieldX op))
  | 0x1E#8 => some (.addI (fieldX op))
  | 0x29#8 => some (.ldF (fieldX op))
  | 0x33#8 => some (.ldB (fieldX op))
  | 0x55#8 => some (.storeRegs (fieldX op))
  | 0x65#8 => some (.loadRegs (fieldX op))
  | _ => none

/-- Classify a 16-bit opcode (R73, R102): one of the 34 instructions, or `none` for a word of the illegal space
(R80). Reads no state. -/
def decodeWord (op : Word) : Option Instr :=
  match fieldP op with
  | 0x0#4 => decodeGroup0 op
  | 0x1#4 => some (.jp (fieldNNN op))
  | 0x2#4 => some (.call (fieldNNN op))
  | 0x3#4 => some (.seImm (fieldX op) (fieldNN op))
  | 0x4#4 => some (.sneImm (fieldX op) (fieldNN op))
  | 0x5#4 => some (.seReg (fieldX op) (fieldY op) (fieldN op))
  | 0x6#4 => some (.ldImm (fieldX op) (fieldNN op))
  | 0x7#4 => some (.addImm (fieldX op) (fieldNN op))
  | 0x8#4 => decodeGroup8 op
  | 0x9#4 => some (.sneReg (fieldX op) (fieldY op) (fieldN op))
  | 0xA#4 => some (.ldI (fieldNNN op))
  | 0xB#4 => some (.jpV0 (fieldNNN op))
  | 0xC#4 => some (.rnd (fieldX op) (fieldNN op))
  | 0xD#4 => some (.drw (fieldX op) (fieldY op) (fieldN op))
  | 0xE#4 => decodeGroupE op
  | _ => decodeGroupF op

/-- Why a byte string holds no instruction. -/
inductive Reject where
  /-- Fewer than the two bytes every instruction has (R70). -/
  | truncated
  /-- The word is in the illegal space (R80). -/
  | illegalOpcode (op : Word)
  deriving DecidableEq, Repr

/-- The word of two bytes in memory order: big-endian (20_memory.md R52). -/
def wordOfBytes (hi lo : Byte) : Word := (hi ++ lo : BitVec 16)

/-- The two bytes of a word in memory order (R52). -/
def bytesOfWord (op : Word) : List Byte := [op.extractLsb' 8 8, op.extractLsb' 0 8]

/-- Read one instruction from a byte string; with it the bytes that follow (R70, R82). -/
def decode : List Byte → Except Reject (Instr × List Byte)
  | hi :: lo :: rest =>
    match decodeWord (wordOfBytes hi lo) with
    | some i => .ok (i, rest)
    | none => .error (.illegalOpcode (wordOfBytes hi lo))
  | _ => .error .truncated

/-- Format `A`: opcode nibble and NNN (R71). -/
def packA (p : Nib) (nnn : Addr) : Word := (p ++ nnn : BitVec 16)

/-- Formats `XB`, `XS` and `S`: opcode nibble, X and a low byte (R71). -/
def packXB (p x : Nib) (nn : Byte) : Word := (p ++ x ++ nn : BitVec 16)

/-- Format `XYN`: opcode nibble, X, Y and a low nibble (R71). -/
def packXYN (p x y n : Nib) : Word := (p ++ x ++ y ++ n : BitVec 16)

/-- The word of an instruction (R74): the encoding of every form, the ignored field included. -/
def encode : Instr → Word
  | .cls u => packXB 0x0 u 0xE0
  | .ret u => packXB 0x0 u 0xEE
  | .jp nnn => packA 0x1 nnn
  | .call nnn => packA 0x2 nnn
  | .seImm x nn => packXB 0x3 x nn
  | .sneImm x nn => packXB 0x4 x nn
  | .seReg x y u => packXYN 0x5 x y u
  | .ldImm x nn => packXB 0x6 x nn
  | .addImm x nn => packXB 0x7 x nn
  | .ldReg x y => packXYN 0x8 x y 0x0
  | .orReg x y => packXYN 0x8 x y 0x1
  | .andReg x y => packXYN 0x8 x y 0x2
  | .xorReg x y => packXYN 0x8 x y 0x3
  | .addReg x y => packXYN 0x8 x y 0x4
  | .subReg x y => packXYN 0x8 x y 0x5
  | .shr x u => packXYN 0x8 x u 0x6
  | .subnReg x y => packXYN 0x8 x y 0x7
  | .shl x u => packXYN 0x8 x u 0xE
  | .sneReg x y u => packXYN 0x9 x y u
  | .ldI nnn => packA 0xA nnn
  | .jpV0 nnn => packA 0xB nnn
  | .rnd x nn => packXB 0xC x nn
  | .drw x y n => packXYN 0xD x y n
  | .skp x => packXB 0xE x 0x9E
  | .sknp x => packXB 0xE x 0xA1
  | .ldVxDt x => packXB 0xF x 0x07
  | .ldVxK x => packXB 0xF x 0x0A
  | .ldDtVx x => packXB 0xF x 0x15
  | .ldStVx x => packXB 0xF x 0x18
  | .addI x => packXB 0xF x 0x1E
  | .ldF x => packXB 0xF x 0x29
  | .ldB x => packXB 0xF x 0x33
  | .storeRegs x => packXB 0xF x 0x55
  | .loadRegs x => packXB 0xF x 0x65

/-- A row of the opcode map: `op &&& mask = bits` selects its instruction (R74). -/
structure Row where
  mask : Word
  bits : Word
  deriving DecidableEq, Repr

/-- The row of the opcode map an instruction belongs to (table of rule R74, columns Mask and Match). -/
def Instr.row : Instr → Row
  | .cls _ => ⟨0xF0FF, 0x00E0⟩
  | .ret _ => ⟨0xF0FF, 0x00EE⟩
  | .jp _ => ⟨0xF000, 0x1000⟩
  | .call _ => ⟨0xF000, 0x2000⟩
  | .seImm _ _ => ⟨0xF000, 0x3000⟩
  | .sneImm _ _ => ⟨0xF000, 0x4000⟩
  | .seReg _ _ _ => ⟨0xF000, 0x5000⟩
  | .ldImm _ _ => ⟨0xF000, 0x6000⟩
  | .addImm _ _ => ⟨0xF000, 0x7000⟩
  | .ldReg _ _ => ⟨0xF00F, 0x8000⟩
  | .orReg _ _ => ⟨0xF00F, 0x8001⟩
  | .andReg _ _ => ⟨0xF00F, 0x8002⟩
  | .xorReg _ _ => ⟨0xF00F, 0x8003⟩
  | .addReg _ _ => ⟨0xF00F, 0x8004⟩
  | .subReg _ _ => ⟨0xF00F, 0x8005⟩
  | .shr _ _ => ⟨0xF00F, 0x8006⟩
  | .subnReg _ _ => ⟨0xF00F, 0x8007⟩
  | .shl _ _ => ⟨0xF00F, 0x800E⟩
  | .sneReg _ _ _ => ⟨0xF000, 0x9000⟩
  | .ldI _ => ⟨0xF000, 0xA000⟩
  | .jpV0 _ => ⟨0xF000, 0xB000⟩
  | .rnd _ _ => ⟨0xF000, 0xC000⟩
  | .drw _ _ _ => ⟨0xF000, 0xD000⟩
  | .skp _ => ⟨0xF0FF, 0xE09E⟩
  | .sknp _ => ⟨0xF0FF, 0xE0A1⟩
  | .ldVxDt _ => ⟨0xF0FF, 0xF007⟩
  | .ldVxK _ => ⟨0xF0FF, 0xF00A⟩
  | .ldDtVx _ => ⟨0xF0FF, 0xF015⟩
  | .ldStVx _ => ⟨0xF0FF, 0xF018⟩
  | .addI _ => ⟨0xF0FF, 0xF01E⟩
  | .ldF _ => ⟨0xF0FF, 0xF029⟩
  | .ldB _ => ⟨0xF0FF, 0xF033⟩
  | .storeRegs _ => ⟨0xF0FF, 0xF055⟩
  | .loadRegs _ => ⟨0xF0FF, 0xF065⟩

/-- The opcode of the low `nbits` bits of `w`, every bit above them zero. -/
def tableOpcode (nbits w : Nat) : Word := BitVec.ofNat 16 (w % 2 ^ nbits)

/-- What the decoder reads from the table's word `w` of `nbits` bits, laid out as the hardware stores it (R52).
Every row has 16 bits, so the word's bits are the opcode's. -/
def decodeTableWord (nbits w : Nat) : Option Instr :=
  match decode (bytesOfWord (tableOpcode nbits w)) with
  | .ok (i, _) => some i
  | .error _ => none

end Sys2Proof
end

