-- ==== Sys2Proof/Machine/Flags.lean ====
section
/-!
DEFINITION. Every flag computation of the spec: VF is the only flag, and these are the values the seven flag-writing
instructions give it (10_state.md R22, 44_alu.md R150).
-/

namespace Sys2Proof.Machine

/-- A flag as the byte VF receives: 1 or 0. -/
def flagByte (f : Bool) : Byte := if f then 1 else 0

/-- Carry of `ADD Vx,Vy`: the 9-bit sum exceeds 255 (R145). -/
def carryOfAdd (a b : Byte) : Bool := decide (a.toNat + b.toNat > 255)

/-- "VF = 1 if no borrow" of `a - b`: a >= b (R146, R148). -/
def noBorrow (a b : Byte) : Bool := decide (b.toNat ≤ a.toNat)

/-- The bit `SHR` shifts out (R147). -/
def shiftedOutRight (a : Byte) : Bool := a.getLsbD 0

/-- The bit `SHL` shifts out (R149). -/
def shiftedOutLeft (a : Byte) : Bool := a.getLsbD 7

/-- The flag of `ADD I,Vx`: the 16-bit value stored exceeds 0xFFF (R161, decision D12). -/
def indexOverflow (stored : Word) : Bool := decide (stored.toNat > 0xFFF)

end Sys2Proof.Machine
end

