-- ==== Sys2Proof/Config.lean ====
section
/-!
DEFINITION. The named parameters of 00_scope.md R6, what crosses the core's boundary (70_reset_and_hazards.md
R264), and the free values: opaque constants that nothing can evaluate.
-/

namespace Sys2Proof

/-- `MEM_SIZE` (R6): addresses 0x000 to 0xFFF. -/
abbrev Config.memSize : Nat := 4096

/-- `PROG_BASE` (R6). -/
abbrev Config.progBase : Nat := 0x200

/-- `PROG_MAX_LEN` (R6). -/
abbrev Config.progMaxLen : Nat := 3584

/-- `FONT_BASE` (R6, decision D24). -/
abbrev Config.fontBase : Nat := 0x050

/-- `FONT_LEN` (R6). -/
abbrev Config.fontLen : Nat := 80

/-- `FONT_GLYPH_LEN` (R6). -/
abbrev Config.glyphLen : Nat := 5

/-- `STACK_DEPTH` (R6, decision D8). -/
abbrev Config.stackDepth : Nat := 16

/-- `DISP_W` (R6). -/
abbrev Config.dispW : Nat := 64

/-- `DISP_H` (R6). -/
abbrev Config.dispH : Nat := 32

/-- The switch `MEM_OOB_WRAPS` of 20_memory.md R55, at its default, off (log 9). -/
def Config.memOobWraps : Bool := false

/-- The switch `BEEP_BEFORE_DECREMENT` of 60_exceptions.md R243, at its default, off (log 10). -/
def Config.beepBeforeDecrement : Bool := false

/-- The display buffer (10_state.md R28): 32 rows of 64 Boolean cells, addressed row first. -/
abbrev Display := Vector (Vector Bool 64) 32

/-- What `debug_snapshot()` returns (60_exceptions.md R254): the stack contents oldest first. -/
structure Snapshot where
  pc    : Word
  st    : Byte
  dt    : Byte
  stack : List Word
  v     : Vector Byte 16
  i     : Word
  deriving DecidableEq, Repr, Inhabited

/-- What the core drives at its boundary in one step (R248, R249, R254, R264).
`frame` is the pixel bus, `some` exactly while `PIXEL_VALID` is asserted; `beep` is the `BEEP` strobe;
`snapshot` and `screen` are the two debug read ports. -/
structure Outputs where
  frame    : Option Display
  beep     : Bool
  snapshot : Option Snapshot
  screen   : Option Display
  deriving DecidableEq, Repr, Inhabited

/-- No output asserted. -/
def Outputs.quiet : Outputs := ⟨none, false, none, none⟩

/-- The operations of the table of rule R264, one atomic step each: `TICK` with its inputs `KEYS[15:0]` and
`RND[7:0]`, `TIMER60`, `RESET`, power-on Construction with its inputs, the two read ports, and no strobe at all
(`stop`: the state is retained, R255). -/
inductive Strobe where
  | tick (keys : BitVec 16) (rnd : Byte)
  | timer60
  | reset
  | construct (font : Vector Byte 80) (image : List Byte)
  | snapshot
  | screenRead
  | stop
  deriving DecidableEq, Repr, Inhabited

/-- Every state element that a fatal condition leaves unspecified (60_exceptions.md R228), with an arbitrary list
of memory writes standing for what became of `Mem`, and arbitrary outputs. -/
structure Wreck where
  v       : Vector Byte 16
  i       : Word
  pc      : Word
  stack   : Vector Word 16
  sp      : Fin 17
  dt      : Byte
  st      : Byte
  disp    : Display
  dirty   : Bool
  writes  : List (Nat × Byte)
  outputs : Outputs
  deriving DecidableEq, Repr, Inhabited

/-- FREE VALUE: which strobe comes next, with which KEYS and RND, where the state holds no pending strobe (R108,
R245; log 1, log 2). -/
opaque Config.strobeAt : Nat → Strobe

/-- FREE VALUE: what a fatal condition leaves in every element but FAULT (R228, treatment U3; log 7). -/
opaque Config.wreckAt : Nat → Wreck

end Sys2Proof
end

