-- ==== Sys2Proof/Machine/State.lean ====
section
/-!
DEFINITION. The machine's state: the tuple of 10_state.md R20, the fault latch of R31, and the model's own fields for
what crosses the core's boundary (INVENTORY.md, heading State).
-/

namespace Sys2Proof.Machine

/-- `Mem` (20_memory.md R50): the cells that differ from what an unlisted cell reads as, at rising addresses. -/
abbrev Memory := List Host.Cell

/-- The four kinds of fatal condition (60_exceptions.md table of rule R220). -/
inductive FaultKind where
  /-- Code 1: the word fetched is in the illegal space (R221). -/
  | illegalOpcode
  /-- Code 2: `RET` with SP = 0 (R222). -/
  | stackUnderflow
  /-- Code 3: `CALL` with SP = 16 (R223). -/
  | stackOverflow
  /-- Code 4: a byte above 0xFFF is read or written, with the first offending address (R224). -/
  | addressOutOfRange (offending : Nat)
  deriving DecidableEq, Repr

/-- The record of the latch FAULT (R31, R225): kind, opcode, and the address pc0 of the failing instruction. -/
structure FaultRecord where
  kind   : FaultKind
  opcode : Word
  addr   : Word
  deriving DecidableEq, Repr

/-- A step of this machine never ends in a host-level fault, so this type has no constructor: the spec's four
fatal conditions are taken as next states with FAULT set (R225), which is safe, since R228 is kept by free values. -/
inductive Fault where
  deriving DecidableEq, Repr

/-- Why a step gives no next state. -/
inductive Refusal where
  /-- Raised by an arm of `exec` whose instruction has no meaning yet. No arm does. Safe. -/
  | notModelled (mnemonic : String)
  /-- Raised by Construction with an image of more than 3584 bytes: "Construction is refused and no machine
  exists" (20_memory.md R58, 70_reset_and_hazards.md R260). Safe. -/
  | imageTooLong (length : Nat)
  deriving DecidableEq, Repr

/-- The whole state. The first eleven fields are the spec's (R20), the last five the model's own. -/
structure State where
  /-- `Mem` (R50). -/
  mem     : Memory
  /-- `V[0..15]` (R21). -/
  v       : Vector Byte 16
  /-- `I` (R23). -/
  i       : Word
  /-- `PC` (R24). -/
  pc      : Word
  /-- `Stack[0..15]` (R25). -/
  stack   : Vector Word 16
  /-- `SP`, 0 to 16, the number of stack entries in use (R25). -/
  sp      : Fin 17
  /-- `DT` (R26). -/
  dt      : Byte
  /-- `ST` (R27). -/
  st      : Byte
  /-- `Disp` (R28). -/
  disp    : Display
  /-- `dirty` (R30). -/
  dirty   : Bool
  /-- `FAULT` (R31). -/
  fault   : Option FaultRecord
  /-- The model's own: `KEYS[15:0]` as sampled for the current Tick (R108, R250). -/
  keys    : BitVec 16
  /-- The model's own: `RND[7:0]` as sampled for the current Tick (R108, R252). -/
  rnd     : Byte
  /-- The model's own: strobes already decided on, the next one first. -/
  pending : List Strobe
  /-- The model's own: what the last step drove at the boundary. -/
  outputs : Outputs
  /-- The model's own: how many steps have been taken, the index of the free values. -/
  draws   : Nat
  deriving DecidableEq, Repr

/-- The outcome of a step of this machine. -/
abbrev Result := Host.Outcome State Fault Refusal

/-- The machine right after Construction with the default font and an empty image (table of rule R33): memory as it
reads with nothing listed, PC at 0x200, everything else zero, blank or none. The stack slots, which the spec leaves
unspecified, and the model's own fields are DESIGN CHOICES (log 1, 2, 3, 6). -/
def State.reset : State where
  mem     := []
  v       := Vector.replicate 16 0
  i       := 0
  pc      := 0x200
  stack   := Vector.replicate 16 0
  sp      := 0
  dt      := 0
  st      := 0
  disp    := Vector.replicate 32 (Vector.replicate 64 false)
  dirty   := false
  fault   := none
  keys    := 0
  rnd     := 0
  pending := []
  outputs := .quiet
  draws   := 0

end Sys2Proof.Machine
end

