-- ==== Sys2Proof/Machine/Operands.lean ====
section
/-!
DEFINITION. Every operand form of the spec: registers through X and Y (10_state.md R21), immediates (30_encoding.md
R72), bytes at I + k (49_timer_bcd_font_block.md R207), the pressed-key set (60_exceptions.md R250), sprite bits
(47_display.md R180) and decimal digits (R203).
-/

namespace Sys2Proof.Machine

/-- `V[x]` (00_scope.md R9). -/
def State.reg (s : State) (x : Nib) : Byte := s.v[x.toNat]'x.isLt

/-- NNN zero-extended to 16 bits, as it goes to PC or I (R72). -/
def zextAddr (nnn : Addr) : Word := nnn.zeroExtend 16

/-- The effective address `I + k`, an unbounded sum (20_memory.md R55, R207). -/
def State.ea (s : State) (k : Nat) : Nat := s.i.toNat + k

/-- `V[0], ..., V[x]`, ascending (R205). -/
def State.regsUpTo (s : State) (x : Nib) : List Byte := s.v.toList.take (x.toNat + 1)

/-- "v in KEYS": the whole byte is compared, so a value above 0x0F is never pressed (R190, decision D16). -/
def keyPressed (keys : BitVec 16) (v : Byte) : Bool := keys.getLsbD v.toNat

/-- `min(KEYS)`, or none when no key is pressed (R192, decision D17; log 11). -/
def lowestKey (keys : BitVec 16) : Option Byte :=
  ((List.range 16).find? fun k => keys.getLsbD k).map (BitVec.ofNat 8)

/-- `b[7 - col]`: bit 7 of a sprite byte is the leftmost pixel (R180, decision D15). -/
def spriteBit (b : Byte) (col : Nat) : Bool := b.getLsbD (7 - col)

/-- The three decimal digits of a byte, hundreds first (R203). -/
def bcdDigits (v : Byte) : List Byte :=
  [BitVec.ofNat 8 (v.toNat / 100), BitVec.ofNat 8 (v.toNat / 10 % 10), BitVec.ofNat 8 (v.toNat % 10)]

/-- The address of the glyph for a value: FONT_BASE + 5 * v, the value used in full (R204, decision D14). -/
def glyphAddress (v : Byte) : Word := BitVec.ofNat 16 (Config.fontBase + v.toNat * Config.glyphLen)

end Sys2Proof.Machine
end

