-- ==== Sys2Proof/Machine/Ops.lean ====
section
/-!
DEFINITION. The named operations over memory, registers, PC and the call stack, instruction fetch, and taking a fatal
condition (20_memory.md, 10_state.md, 40_fetch_execute_cycle.md, 60_exceptions.md).
-/

namespace Sys2Proof.Machine

/-! ## Memory -/

/-- The default `FONT_DATA`, glyphs 0 to F, five bytes each (70_reset_and_hazards.md table of rule R261; log 5). -/
def fontData : List Byte :=
  ([0xF0, 0x90, 0x90, 0x90, 0xF0] : List Byte) ++ [0x20, 0x60, 0x20, 0x20, 0x70]
    ++ [0xF0, 0x10, 0xF0, 0x80, 0xF0] ++ [0xF0, 0x10, 0xF0, 0x10, 0xF0]
    ++ [0x90, 0x90, 0xF0, 0x10, 0x10] ++ [0xF0, 0x80, 0xF0, 0x10, 0xF0]
    ++ [0xF0, 0x80, 0xF0, 0x90, 0xF0] ++ [0xF0, 0x10, 0x20, 0x40, 0x40]
    ++ [0xF0, 0x90, 0xF0, 0x90, 0xF0] ++ [0xF0, 0x90, 0xF0, 0x10, 0xF0]
    ++ [0xF0, 0x90, 0xF0, 0x90, 0x90] ++ [0xE0, 0x90, 0xE0, 0x90, 0xE0]
    ++ [0xF0, 0x80, 0x80, 0x80, 0xF0] ++ [0xE0, 0x90, 0x90, 0x90, 0xE0]
    ++ [0xF0, 0x80, 0xF0, 0x80, 0xF0] ++ [0xF0, 0x80, 0xF0, 0x80, 0x80]

/-- The default font as the input of Construction. -/
def defaultFont : Vector Byte 80 := Vector.ofFn fun k => fontData.getD k.val 0

/-- What an unlisted cell reads as: the default font in 0x050 to 0x09F, 0x00 elsewhere (table of rule R51). -/
def resetByte (a : Nat) : Byte :=
  if Config.fontBase ≤ a ∧ a < Config.fontBase + Config.fontLen then fontData.getD (a - Config.fontBase) 0 else 0

/-- `Mem[a]` (R10). -/
def Memory.get : Memory → Nat → Byte
  | [], a => resetByte a
  | (k, b) :: t, a => if k = a then b else Memory.get t a

/-- `Mem[a] <- b`, keeping the canonical form: the entry goes where the value is what an unlisted cell reads as. -/
def Memory.set : Memory → Nat → Byte → Memory
  | [], a, b => if b = resetByte a then [] else [(a, b)]
  | (k, c) :: t, a, b =>
    if a < k then (if b = resetByte a then (k, c) :: t else (a, b) :: (k, c) :: t)
    else if a = k then (if b = resetByte a then t else (a, b) :: t)
    else (k, c) :: Memory.set t a b

/-- The canonical form from address `lo` on: addresses strictly rising and inside memory, no entry equal to what an
unlisted cell reads as. -/
def Memory.wfFrom : Nat → Memory → Bool
  | _, [] => true
  | lo, (k, b) :: t => decide (lo ≤ k) && decide (k < Config.memSize) && b != resetByte k && Memory.wfFrom (k + 1) t

/-- The canonical form of a memory. -/
def Memory.wf (m : Memory) : Bool := Memory.wfFrom 0 m

/-- Place bytes at ascending addresses from `a` on, all of them known to be inside memory (Construction, R58). -/
def Memory.fill : Memory → Nat → List Byte → Memory
  | m, _, [] => m
  | m, a, b :: bs => Memory.fill (m.set a b) (a + 1) bs

/-- Write a list of cells, dropping those that do not exist. -/
def Memory.setCells : Memory → List (Nat × Byte) → Memory
  | m, [] => m
  | m, (a, b) :: t => Memory.setCells (if a < Config.memSize then m.set a b else m) t

/-- The cell an address names, or the address itself where it is above 0xFFF and raises (R55; log 9). -/
def resolve (a : Nat) : Except Nat Nat :=
  if a < Config.memSize then .ok a
  else if Config.memOobWraps then .ok (a % Config.memSize)
  else .error a

/-- `MemRead(a, 1)`: the byte, or the offending address (R55). -/
def Memory.read (m : Memory) (a : Nat) : Except Nat Byte :=
  match resolve a with
  | .ok k => .ok (m.get k)
  | .error e => .error e

/-- `MemWrite(a, 1, b)`: the memory after it, or the offending address (R55). -/
def Memory.write (m : Memory) (a : Nat) (b : Byte) : Except Nat Memory :=
  match resolve a with
  | .ok k => .ok (m.set k b)
  | .error e => .error e

/-- `n` byte reads at ascending addresses, or the first offending address (R56). -/
def Memory.readBytes : Memory → Nat → Nat → Except Nat (List Byte)
  | _, _, 0 => .ok []
  | m, a, n + 1 =>
    match m.read a with
    | .error e => .error e
    | .ok b =>
      match Memory.readBytes m (a + 1) n with
      | .error e => .error e
      | .ok bs => .ok (b :: bs)

/-- Byte writes at ascending addresses, or the first offending address (R56). -/
def Memory.writeBytes : Memory → Nat → List Byte → Except Nat Memory
  | m, _, [] => .ok m
  | m, a, b :: bs =>
    match m.write a b with
    | .error e => .error e
    | .ok m' => Memory.writeBytes m' (a + 1) bs

/-! ## Registers, PC, call stack -/

/-- `V[x] <- b` (R9). -/
def State.setReg (s : State) (x : Nib) (b : Byte) : State := { s with v := s.v.set x.toNat b x.isLt }

/-- `V[F] <- (1 if f else 0)` (R22). -/
def State.setFlag (s : State) (f : Bool) : State := s.setReg 0xF (flagByte f)

/-- `V[k], V[k+1], ... <- bytes`, ascending (R206). -/
def State.loadRegsFrom : State → Nat → List Byte → State
  | s, _, [] => s
  | s, k, b :: bs => State.loadRegsFrom { s with v := s.v.setIfInBounds k b } (k + 1) bs

/-- `I <- w`. -/
def State.setI (s : State) (w : Word) : State := { s with i := w }

/-- `pc <- target`, the only way PC changes (R9). -/
def State.setPc (s : State) (target : Word) : State := { s with pc := target }

/-- The advance of rule R103: `pc <- (pc + 2) mod 65536`. -/
def State.advance (s : State) : State := s.setPc (s.pc + 2)

/-- `pc0`, the address of the instruction being executed, seen from its handler (R12, R104). -/
def State.pc0 (s : State) : Word := s.pc - 2

/-- "Skip next instruction": 2 more on top of the advance, where the condition holds (R105). -/
def State.skipIf (s : State) (c : Bool) : State := if c then s.setPc (s.pc + 2) else s

/-- `Mem <- m`. -/
def State.setMem (s : State) (m : Memory) : State := { s with mem := m }

/-- `Push(w)`, or none on a full stack (R25, R223). -/
def State.push (s : State) (w : Word) : Option State :=
  if h : s.sp.val < Config.stackDepth then
    some { s with stack := s.stack.set s.sp.val w h, sp := ⟨s.sp.val + 1, Nat.succ_lt_succ h⟩ }
  else none

/-- `Pop()`: the entry and the state after, or none on an empty stack (R25, R222). -/
def State.pop (s : State) : Option (Word × State) :=
  match s.sp with
  | ⟨0, _⟩ => none
  | ⟨n + 1, h⟩ =>
    some (s.stack[n]'(Nat.lt_of_succ_lt_succ h), { s with sp := ⟨n, Nat.lt_of_succ_lt h⟩ })

/-- `Stack[0..SP-1]`, oldest first (R25). -/
def State.entries (s : State) : List Word := s.stack.toList.take s.sp.val

/-! ## Taking a fatal condition -/

/-- The codes of the table of rule R220. -/
def faultCode : FaultKind → Nat
  | .illegalOpcode => 1
  | .stackUnderflow => 2
  | .stackOverflow => 3
  | .addressOutOfRange _ => 4

/-- "Apart from FAULT itself, this spec leaves the whole state unspecified" (R228): every other element of the
spec's state becomes a free value (log 7). -/
def State.wreck (s : State) : State :=
  { s with
    mem   := s.mem.setCells (Config.wreckAt s.draws).writes
    v     := (Config.wreckAt s.draws).v
    i     := (Config.wreckAt s.draws).i
    pc    := (Config.wreckAt s.draws).pc
    stack := (Config.wreckAt s.draws).stack
    sp    := (Config.wreckAt s.draws).sp
    dt    := (Config.wreckAt s.draws).dt
    st    := (Config.wreckAt s.draws).st
    disp  := (Config.wreckAt s.draws).disp
    dirty := (Config.wreckAt s.draws).dirty }

/-- `raise kind(info)` (R225): the Tick ends, FAULT holds the kind, the opcode and the address of the failing
instruction, and nothing else is specified (R228). -/
def raise (kind : FaultKind) (opcode addr : Word) (s : State) : Result :=
  .next { s.wreck with fault := some ⟨kind, opcode, addr⟩ }

/-- A fatal condition raised inside the handler of `i`: the word is the one fetched and the address is pc0, two
below the already-advanced PC (R103, R220, R225). -/
def raiseIn (kind : FaultKind) (i : Instr) (s : State) : Result := raise kind (encode i) s.pc0 s

/-! ## Fetch and the Tick -/

/-- `MemRead(pc0, 2)`: the word at PC, first byte read first, or the offending address (R101). -/
def fetch (s : State) : Except Nat Word :=
  match s.mem.read s.pc.toNat with
  | .error e => .error e
  | .ok hi =>
    match s.mem.read (s.pc.toNat + 1) with
    | .error e => .error e
    | .ok lo => .ok (wordOfBytes hi lo)

/-- One Tick (R100): nothing on a halted core (R226); else fetch, decompose, advance and run the handler, a fatal
condition of the fetch or of the decode taken in that order (R101 to R104, R227). -/
def tick (run : Instr → State → Result) (s : State) : Result :=
  match s.fault with
  | some _ => .next s
  | none =>
    match fetch s with
    | .error a => raise (.addressOutOfRange a) 0 s.pc s
    | .ok op =>
      match decodeWord op with
      | none => raise .illegalOpcode op s.pc s.advance
      | some i => run i s.advance

end Sys2Proof.Machine
end

