-- ==== Sys2Proof/Machine/Agents.lean ====
section
/-!
DEFINITION. Everything that acts on the core besides the instructions: the 60 Hz TimerStep (60_exceptions.md R240 to
R243), and the host operations of the table of rule R264 in 70_reset_and_hazards.md.
-/

namespace Sys2Proof.Machine

/-- One decrement, floor-clamped at 0 (R241). -/
def decrement (t : Byte) : Byte := if t = 0 then 0 else t - 1

/-- The value of ST the beep condition is tested on: after the decrement (R243; log 10). -/
def beepTested (before : Byte) : Byte := if Config.beepBeforeDecrement then before else decrement before

/-- TimerStep: decrement both timers (R241), flush the display if dirty (R242), beep while ST is positive (R243). -/
def State.timerStep (s : State) : State :=
  { s with
    dt      := decrement s.dt
    st      := decrement s.st
    dirty   := false
    outputs := { s.outputs with
      frame := if s.dirty then some s.disp else none
      beep  := decide (0 < (beepTested s.st).toNat) } }

/-- `reset()` (R262): V, I, PC, SP, DT, ST to their initial values; memory, display, dirty and FAULT untouched. -/
def State.hostReset (s : State) : State :=
  { s with v := Vector.replicate 16 0, i := 0, pc := Config.progBase, sp := 0, dt := 0, st := 0 }

/-- The memory Construction leaves: zeros, then the font, then the image (R58). -/
def constructedMemory (font : Vector Byte 80) (image : List Byte) : Memory :=
  (Memory.fill [] Config.fontBase font.toList).fill Config.progBase image

/-- Construction (R260): a fresh core over the given font and image, or a refusal when the image is too long. What
is already pending at the boundary, and the index of the free values, carry on. -/
def construct (font : Vector Byte 80) (image : List Byte) (s : State) : Result :=
  if image.length ≤ Config.progMaxLen then
    .next { State.reset with
      mem := constructedMemory font image
      keys := s.keys, rnd := s.rnd, pending := s.pending, draws := s.draws }
  else .refused (.imageTooLong image.length)

/-- `debug_snapshot()` (R254). -/
def State.debugSnapshot (s : State) : Snapshot where
  pc    := s.pc
  st    := s.st
  dt    := s.dt
  stack := s.entries
  v     := s.v
  i     := s.i

/-- The snapshot on its read port; nothing else changes (R254). -/
def State.readSnapshot (s : State) : State :=
  { s with outputs := { s.outputs with snapshot := some s.debugSnapshot } }

/-- The display debug read on its read port; nothing else changes (R254, decision D33). -/
def State.readScreen (s : State) : State :=
  { s with outputs := { s.outputs with screen := some s.disp } }

/-- TimerStep, reset() and the debug reads on a halted core: "remain callable but nothing they do is specified"
(R226), except that FAULT is never cleared. State and outputs are free values (log 7). -/
def State.unlessHalted (f : State → State) (s : State) : State :=
  match s.fault with
  | none => f s
  | some _ => { s.wreck with outputs := (Config.wreckAt s.draws).outputs }

/-- The strobe of the next step: the first pending one, else a free value (R245; log 2). -/
def State.nextStrobe (s : State) : Strobe :=
  match s.pending with
  | [] => Config.strobeAt s.draws
  | e :: _ => e

/-- What every step does first, to the model's own fields only: the strobe is used up, the outputs of the last step
are no longer asserted, the index of the free values moves on. -/
def State.consume (s : State) : State :=
  { s with pending := s.pending.tail, outputs := .quiet, draws := s.draws + 1 }

/-- KEYS and RND as sampled for this Tick (R108). -/
def State.sample (s : State) (keys : BitVec 16) (rnd : Byte) : State := { s with keys := keys, rnd := rnd }

/-- One atomic step of the agent whose strobe it is (table of rule R264, R61). -/
def runStrobe (run : Instr → State → Result) (e : Strobe) (s : State) : Result :=
  match e with
  | .tick keys rnd => tick run (s.sample keys rnd)
  | .timer60 => .next (s.unlessHalted State.timerStep)
  | .reset => .next (s.unlessHalted State.hostReset)
  | .construct font image => construct font image s
  | .snapshot => .next (s.unlessHalted State.readSnapshot)
  | .screenRead => .next (s.unlessHalted State.readScreen)
  | .stop => .next s

end Sys2Proof.Machine
end

