-- ==== Sys2Proof/Machine/Alu.lean ====
section
/-!
DEFINITION. Immediate load and add (43_immediate.md R130, R131) and the register-to-register ALU (44_alu.md R140 to
R150).
-/

namespace Sys2Proof.Machine

/-- The common ending of the instructions that write VX and VF: the result first, the flag last (R140). -/
def State.setRegFlag (s : State) (x : Nib) (r : Byte) (f : Bool) : State := (s.setReg x r).setFlag f

/-- `LD Vx,NN` (R130). -/
def execLdImm (x : Nib) (nn : Byte) (s : State) : Result := .next (s.setReg x nn)

/-- `ADD Vx,NN` (R131): wraps, and writes no flag. -/
def execAddImm (x : Nib) (nn : Byte) (s : State) : Result := .next (s.setReg x (s.reg x + nn))

/-- `LD Vx,Vy` (R141). -/
def execLdReg (x y : Nib) (s : State) : Result := .next (s.setReg x (s.reg y))

/-- `OR Vx,Vy` (R142): VF untouched. -/
def execOr (x y : Nib) (s : State) : Result := .next (s.setReg x (s.reg x ||| s.reg y))

/-- `AND Vx,Vy` (R143): VF untouched. -/
def execAnd (x y : Nib) (s : State) : Result := .next (s.setReg x (s.reg x &&& s.reg y))

/-- `XOR Vx,Vy` (R144): VF untouched. -/
def execXor (x y : Nib) (s : State) : Result := .next (s.setReg x (s.reg x ^^^ s.reg y))

/-- `ADD Vx,Vy` (R145): VF = carry. -/
def execAddReg (x y : Nib) (s : State) : Result :=
  .next (s.setRegFlag x (s.reg x + s.reg y) (carryOfAdd (s.reg x) (s.reg y)))

/-- `SUB Vx,Vy` (R146): VF = no borrow of VX - VY. -/
def execSub (x y : Nib) (s : State) : Result :=
  .next (s.setRegFlag x (s.reg x - s.reg y) (noBorrow (s.reg x) (s.reg y)))

/-- `SHR Vx` (R147): VX shifted in place, VF = its old bit 0. -/
def execShr (x : Nib) (s : State) : Result :=
  .next (s.setRegFlag x (s.reg x >>> 1) (shiftedOutRight (s.reg x)))

/-- `SUBN Vx,Vy` (R148): VF = no borrow of VY - VX. -/
def execSubn (x y : Nib) (s : State) : Result :=
  .next (s.setRegFlag x (s.reg y - s.reg x) (noBorrow (s.reg y) (s.reg x)))

/-- `SHL Vx` (R149): VX shifted in place, VF = its old bit 7. -/
def execShl (x : Nib) (s : State) : Result :=
  .next (s.setRegFlag x (s.reg x <<< 1) (shiftedOutLeft (s.reg x)))

end Sys2Proof.Machine
end

