-- ==== Sys2Proof/Machine/Control.lean ====
section
/-!
DEFINITION. Jump, call, return, jump-plus-offset (41_jump_call_return.md R110 to R113). On entry PC is already the
advanced one (R103).
-/

namespace Sys2Proof.Machine

/-- `JP NNN` (R110): `pc <- NNN`. -/
def execJp (nnn : Addr) (s : State) : Result := .next (s.setPc (zextAddr nnn))

/-- `CALL NNN` (R111): `Push(pcn); pc <- NNN`, or StackOverflow before anything is pushed (R223). -/
def execCall (nnn : Addr) (s : State) : Result :=
  match s.push s.pc with
  | some t => .next (t.setPc (zextAddr nnn))
  | none => raiseIn .stackOverflow (.call nnn) s

/-- `RET` (R112): `pc <- Pop()`, or StackUnderflow (R222). -/
def execRet (u : Nib) (s : State) : Result :=
  match s.pop with
  | some (w, t) => .next (t.setPc w)
  | none => raiseIn .stackUnderflow (.ret u) s

/-- `JP V0,NNN` (R113): `pc <- (NNN + V[0]) mod 65536`, with no 12-bit mask. -/
def execJpV0 (nnn : Addr) (s : State) : Result := .next (s.setPc (zextAddr nnn + (s.reg 0).zeroExtend 16))

end Sys2Proof.Machine
end

