-- ==== Sys2Proof/Machine/Draw.lean ====
section
/-!
DEFINITION. The display buffer writer (47_display.md R180, R181).
-/

namespace Sys2Proof.Machine

/-- `Disp[y][x]` (R28). -/
def pixel (d : Display) (y : Fin 32) (x : Fin 64) : Bool := d[y.val][x.val]

/-- `Disp[y][x] <- not Disp[y][x]`. -/
def flipPixel (d : Display) (y : Fin 32) (x : Fin 64) : Display :=
  d.set y.val (d[y.val].set x.val (!pixel d y x) x.isLt) y.isLt

/-- The blank display. -/
def blankDisplay : Display := Vector.replicate 32 (Vector.replicate 64 false)

/-- The variables of the pseudocode of R180: `Disp`, whether a lit pixel was turned off, and `changed`. -/
structure Canvas where
  disp      : Display
  collision : Bool
  changed   : Bool

/-- One bit of one sprite row (R180): every pixel wraps on its own. -/
def drawBit (x0 y : Nat) (b : Byte) (c : Canvas) (col : Nat) : Canvas :=
  if spriteBit b col then
    { disp      := flipPixel c.disp (Fin.ofNat 32 y) (Fin.ofNat 64 (x0 + col))
      collision := c.collision || pixel c.disp (Fin.ofNat 32 y) (Fin.ofNat 64 (x0 + col))
      changed   := true }
  else c

/-- One sprite row: columns 0 to 7, ascending. -/
def drawRow (x0 y : Nat) (b : Byte) (c : Canvas) : Canvas := (List.range 8).foldl (drawBit x0 y b) c

/-- The rows of a sprite, ascending. -/
def drawRows : Nat → Nat → List Byte → Canvas → Canvas
  | _, _, [], c => c
  | x0, y, b :: bs, c => drawRows x0 (y + 1) bs (drawRow x0 y b c)

/-- `Disp`, VF and `dirty` after drawing the rows `bs`; both coordinates were read before VF is written. -/
def State.drawSprite (s : State) (x y : Nib) (bs : List Byte) : State :=
  let c := drawRows (s.reg x).toNat (s.reg y).toNat bs ⟨s.disp, false, false⟩
  { s with disp := c.disp, dirty := s.dirty || c.changed }.setFlag c.collision

/-- `DRW Vx,Vy,N` (R180). The N bytes are read first, at ascending addresses: nothing the drawing writes is read by
them, and after an AddressOutOfRange nothing of the drawing is specified (R56, R228). -/
def execDrw (x y n : Nib) (s : State) : Result :=
  match s.mem.readBytes (s.ea 0) n.toNat with
  | .ok bs => .next (s.drawSprite x y bs)
  | .error a => raiseIn (.addressOutOfRange a) (.drw x y n) s

/-- `CLS` (R181): every cell false, `dirty` set whatever the display was. -/
def execCls (s : State) : Result := .next { s with disp := blankDisplay, dirty := true }

end Sys2Proof.Machine
end

