-- ==== Sys2Proof/Machine/Index.lean ====
section
/-!
DEFINITION. Index-register operations (45_index.md R160, R161), the font index (49_timer_bcd_font_block.md R204) and
the random byte (46_random.md R170).
-/

namespace Sys2Proof.Machine

/-- `LD I,NNN` (R160). -/
def execLdI (nnn : Addr) (s : State) : Result := .next (s.setI (zextAddr nnn))

/-- I after `ADD I,Vx`: `(I + VX) mod 65536` (R161). -/
def State.indexSum (s : State) (x : Nib) : Word := s.i + (s.reg x).zeroExtend 16

/-- `ADD I,Vx` (R161): VF = 1 exactly where the value stored exceeds 0xFFF, and always written. -/
def execAddI (x : Nib) (s : State) : Result :=
  .next ((s.setI (s.indexSum x)).setFlag (indexOverflow (s.indexSum x)))

/-- `LD F,Vx` (R204): VX in full, no flag. -/
def execLdF (x : Nib) (s : State) : Result := .next (s.setI (glyphAddress (s.reg x)))

/-- `RND Vx,NN` (R170): the random byte sampled for this Tick, masked. -/
def execRnd (x : Nib) (nn : Byte) (s : State) : Result := .next (s.setReg x (s.rnd &&& nn))

end Sys2Proof.Machine
end

