-- ==== Sys2Proof/Machine/Keypad.lean ====
section
/-!
DEFINITION. Keypad instructions (48_keypad.md R190 to R192), over the KEYS sampled for this Tick.
-/

namespace Sys2Proof.Machine

/-- `SKP Vx` (R190). -/
def execSkp (x : Nib) (s : State) : Result := .next (s.skipIf (keyPressed s.keys (s.reg x)))

/-- `SKNP Vx` (R191). -/
def execSknp (x : Nib) (s : State) : Result := .next (s.skipIf (!keyPressed s.keys (s.reg x)))

/-- `LD Vx,K` (R192): retry while no key is pressed, else the lowest pressed key code goes to VX. -/
def execLdVxK (x : Nib) (s : State) : Result :=
  match lowestKey s.keys with
  | none => .next (s.setPc s.pc0)
  | some k => .next (s.setReg x k)

end Sys2Proof.Machine
end

