-- ==== Sys2Proof/Machine/Skip.lean ====
section
/-!
DEFINITION. Conditional skips on register values (42_conditional_skip.md R120 to R123).
-/

namespace Sys2Proof.Machine

/-- `SE Vx,NN` (R120). -/
def execSeImm (x : Nib) (nn : Byte) (s : State) : Result := .next (s.skipIf (s.reg x == nn))

/-- `SNE Vx,NN` (R121). -/
def execSneImm (x : Nib) (nn : Byte) (s : State) : Result := .next (s.skipIf (s.reg x != nn))

/-- `SE Vx,Vy` (R122). -/
def execSeReg (x y : Nib) (s : State) : Result := .next (s.skipIf (s.reg x == s.reg y))

/-- `SNE Vx,Vy` (R123). -/
def execSneReg (x y : Nib) (s : State) : Result := .next (s.skipIf (s.reg x != s.reg y))

end Sys2Proof.Machine
end

