-- ==== Sys2Proof/Machine/Transfer.lean ====
section
/-!
DEFINITION. Timer moves, BCD store, register block store and load (49_timer_bcd_font_block.md R200 to R203, R205,
R206).
-/

namespace Sys2Proof.Machine

/-- `LD Vx,DT` (R200). -/
def execLdVxDt (x : Nib) (s : State) : Result := .next (s.setReg x s.dt)

/-- `LD DT,Vx` (R201). -/
def execLdDtVx (x : Nib) (s : State) : Result := .next { s with dt := s.reg x }

/-- `LD ST,Vx` (R202). -/
def execLdStVx (x : Nib) (s : State) : Result := .next { s with st := s.reg x }

/-- Store bytes from I on, I unchanged, on behalf of `i` (R56, R207). -/
def State.storeAtI (s : State) (i : Instr) (bs : List Byte) : Result :=
  match s.mem.writeBytes (s.ea 0) bs with
  | .ok m => .next (s.setMem m)
  | .error a => raiseIn (.addressOutOfRange a) i s

/-- `LD B,Vx` (R203): the three decimal digits at I, I+1, I+2. -/
def execLdB (x : Nib) (s : State) : Result := s.storeAtI (.ldB x) (bcdDigits (s.reg x))

/-- `LD [I],Vx` (R205): V0..VX at I, ascending. -/
def execStoreRegs (x : Nib) (s : State) : Result := s.storeAtI (.storeRegs x) (s.regsUpTo x)

/-- `LD Vx,[I]` (R206): V0..VX from I, ascending. -/
def execLoadRegs (x : Nib) (s : State) : Result :=
  match s.mem.readBytes (s.ea 0) (x.toNat + 1) with
  | .ok bs => .next (s.loadRegsFrom 0 bs)
  | .error a => raiseIn (.addressOutOfRange a) (.loadRegs x) s

end Sys2Proof.Machine
end

