-- ==== Sys2Proof/Machine/Step.lean ====
section
/-!
DEFINITION. One step of the machine: the strobe that comes next, run as one atomic step (20_memory.md R61); and where
an instruction is placed so that the very next step runs it.
-/

namespace Sys2Proof.Machine

/-- One step: the next strobe is used up and its agent acts (R61, R100, R264). -/
def step (s : State) : Host.Outcome State Fault Refusal := runStrobe exec s.nextStrobe s.consume

/-- `s` with the opcode of the low `nbits` bits of `w` stored at PC, and a Tick next on a core that is not halted
(log 2). -/
def State.withFetchWord (s : State) (nbits w : Nat) : State :=
  { s with
    mem := s.mem.setCells
      [(s.pc.toNat, (tableOpcode nbits w).extractLsb' 8 8), (s.pc.toNat + 1, (tableOpcode nbits w).extractLsb' 0 8)]
    fault := none
    pending := .tick s.keys s.rnd :: s.pending }

end Sys2Proof.Machine
end

