-- ==== Sys2Proof/Safety.lean ====
section
/-!
DEFINITION. What counts as a safe state, and the invariants the statements speak of.
-/

namespace Sys2Proof.Machine

/-- A safe state: no fatal condition has been raised. A claim about a program takes this as a premise or proves it
(60_exceptions.md R226). -/
abbrev State.Safe (s : State) : Prop := s.fault = none

/-- The opcode a fault record may hold, by kind (table of rule R220): a word of the illegal space; a RET; a CALL; and
for AddressOutOfRange an offending address above 0xFFF with opcode 0x0000 (the fetch failed) or the word of one of the
four instructions that access data memory. -/
def FaultRecord.wf (r : FaultRecord) : Bool :=
  match r.kind with
  | .illegalOpcode => (decodeWord r.opcode).isNone
  | .stackUnderflow => r.opcode &&& 0xF0FF == 0x00EE
  | .stackOverflow => r.opcode &&& 0xF000 == 0x2000
  | .addressOutOfRange a =>
    decide (0xFFF < a) &&
      (r.opcode == 0 || r.opcode &&& 0xF000 == 0xD000 || r.opcode &&& 0xF0FF == 0xF033
        || r.opcode &&& 0xF0FF == 0xF055 || r.opcode &&& 0xF0FF == 0xF065)

/-- Memory has its canonical form, and FAULT holds nothing or a record the table of rule R220 allows. -/
abbrev State.Inv (s : State) : Prop := s.mem.wf = true ∧ ∀ r, s.fault = some r → r.wf = true

/-- On a core that is not halted, PC is at most 0xFFF + 0xFF and every return address in use at most 0x1000 (R103,
R111, R113): PC arithmetic never wraps in a run. -/
abbrev State.PcInv (s : State) : Prop :=
  s.fault = none → s.pc.toNat ≤ 0x10FE ∧ ∀ w ∈ s.entries, w.toNat ≤ 0x1000

/-- An outcome that is the taking of a fatal condition: a next state whose FAULT holds exactly this record, and
nothing said of the rest (R225, R228). -/
abbrev Raises (o : Host.Outcome State Fault Refusal) (kind : FaultKind) (opcode addr : Word) : Prop :=
  ∃ t, o = .next t ∧ t.fault = some ⟨kind, opcode, addr⟩

/-- The first address above 0xFFF among ascending addresses from `a` on, where there is one (R56, R224). -/
def firstOffending (a : Nat) : Nat := if 0xFFF < a then a else 0x1000

/-- The sprite bit that `DRW Vx,Vy,n` puts on the cell in row `py` and column `px`, read off the geometry of R180
rather than from the drawing loops: the cell's row below the top edge and its column right of the left edge, both
around the display, must lie in the sprite, and bit 7 is the leftmost. -/
def spriteAt (s : State) (x y n : Nib) (py : Fin 32) (px : Fin 64) : Bool :=
  let row := (py.val + 32 - (s.reg y).toNat % 32) % 32
  let col := (px.val + 64 - (s.reg x).toNat % 64) % 64
  decide (row < n.toNat) && decide (col < 8) && (s.mem.get (s.i.toNat + row)).getLsbD (7 - col)

end Sys2Proof.Machine
end

