-- ==== Sys2Proof/Certificates/Slice0/Obligations.lean ====
section
/-!
DEFINITION. The statements for the provers. In a statement about an instruction, `s` is the state its handler sees:
PC is already the advanced one (40_fetch_execute_cycle.md R103), so pc0 is `s.pc - 2`. An equation
`{ t with f := s.f } = s` says that every field but `f` is unchanged. Where a clause follows one of the spec's own
decisions D1 to D35 (92_eei_decisions.md; log 12) the docstring names it; opcode numbers are those of the table of
rule R74, some of which the spec marks as general knowledge (its G1).
-/

open Sys2Proof Sys2Proof.Machine

/-! ## Encoding -/

/-- R74, R79: no bit of any encoding is dropped, for every instruction at every operand value. -/
def Obligations.DecodingAnEncodedInstructionGivesItBack : Prop :=
  ∀ i : Instr, decodeWord (encode i) = some i

/-- R74: every legal word is the word of the one instruction it decodes to, ignored field included. -/
def Obligations.EncodingADecodedWordGivesItBack : Prop :=
  ∀ (op : Word) (i : Instr), decodeWord op = some i → encode i = op

/-- R74, R73: the two-level dispatch agrees with the mask and match of every row: a row selects a word exactly when
the word decodes to an instruction of that row. -/
def Obligations.DispatchAgreesWithMaskAndMatch : Prop :=
  ∀ (op : Word) (i : Instr), op &&& i.row.mask = i.row.bits ↔ ∃ j, decodeWord op = some j ∧ j.row = i.row

/-- R80: the illegal words are exactly the four groups the rule lists, written in the word's numeric value. -/
def Obligations.IllegalSpaceIsExact : Prop :=
  ∀ op : Word, decodeWord op = none ↔
    (op.toNat / 4096 = 0x0 ∧ op.toNat % 256 ∉ [0xE0, 0xEE]) ∨
    (op.toNat / 4096 = 0x8 ∧ op.toNat % 16 ∈ [0x8, 0x9, 0xA, 0xB, 0xC, 0xD, 0xF]) ∨
    (op.toNat / 4096 = 0xE ∧ op.toNat % 256 ∉ [0x9E, 0xA1]) ∨
    (op.toNat / 4096 = 0xF ∧ op.toNat % 256 ∉ [0x07, 0x0A, 0x15, 0x18, 0x1E, 0x29, 0x33, 0x55, 0x65])

/-- R79, decision D3: the ignored field of 5XY_, 9XY_, 00E0, 00EE and the shifts has no effect where no fatal
condition records the word (log 8). -/
def Obligations.IgnoredFieldsHaveNoEffect : Prop :=
  ∀ (x y u : Nib) (s : State),
    exec (.cls u) s = exec (.cls 0) s ∧ exec (.seReg x y u) s = exec (.seReg x y 0) s ∧
    exec (.sneReg x y u) s = exec (.sneReg x y 0) s ∧ exec (.shr x u) s = exec (.shr x 0) s ∧
    exec (.shl x u) s = exec (.shl x 0) s ∧ (s.sp ≠ 0 → exec (.ret u) s = exec (.ret 0) s)

/-- R72, R74: words written out from the encodings decode to the instructions they stand for. -/
def Obligations.SampleWordsDecode : Prop :=
  decodeWord 0x8AB4 = some (.addReg 0xA 0xB) ∧ decodeWord 0xD5F3 = some (.drw 0x5 0xF 0x3) ∧
  decodeWord 0x600A = some (.ldImm 0 0x0A) ∧ decodeWord 0x8014 = some (.addReg 0 1) ∧
  decodeWord 0xE49E = some (.skp 4) ∧ decodeWord 0xF365 = some (.loadRegs 3) ∧
  decodeWord 0x0500 = none ∧ decodeWord 0x812F = none

/-! ## The step -/

/-- R100 to R104: where a Tick comes next on a core that is not halted and the two bytes at PC decode to `i`, the step
is the handler of `i` on the state with the inputs sampled and PC advanced by 2. -/
def Obligations.StepRunsTheDecodedInstruction : Prop :=
  ∀ (s : State) (keys : BitVec 16) (rnd : Byte) (i : Instr),
    s.nextStrobe = .tick keys rnd → s.fault = none → s.pc.toNat ≤ 0xFFE →
    decode [s.mem.get s.pc.toNat, s.mem.get (s.pc.toNat + 1)] = .ok (i, []) →
    step s = exec i ((s.consume.sample keys rnd).setPc (s.pc + 2))

/-- R52, R101: a fetch inside memory is the byte at PC times 256 plus the byte at PC + 1, at any parity of PC. -/
def Obligations.FetchIsBigEndian : Prop :=
  ∀ s : State, s.pc.toNat ≤ 0xFFE →
    ∃ op, fetch s = .ok op ∧
      op.toNat = (s.mem.get s.pc.toNat).toNat * 256 + (s.mem.get (s.pc.toNat + 1)).toNat

/-- R101, R220, decisions D7 and D27: a fetch that leaves memory raises AddressOutOfRange with opcode 0x0000 and the
address of the instruction, the offending address being PC itself or, at PC = 0xFFF, 0x1000. That the condition is a
next state is log 7. -/
def Obligations.FetchOutsideMemoryRaises : Prop :=
  ∀ (s : State) (keys : BitVec 16) (rnd : Byte),
    s.nextStrobe = .tick keys rnd → s.fault = none → 0xFFE < s.pc.toNat →
    Raises (step s) (.addressOutOfRange (firstOffending s.pc.toNat)) 0x0000 s.pc

/-- R221, R225, decision D27 for the record: a word of the illegal space raises IllegalOpcode with that word and its
address. That the condition is a next state is log 7. -/
def Obligations.IllegalWordRaises : Prop :=
  ∀ (s : State) (keys : BitVec 16) (rnd : Byte) (op : Word),
    s.nextStrobe = .tick keys rnd → s.fault = none → fetch s = .ok op → decodeWord op = none →
    Raises (step s) .illegalOpcode op s.pc

/-- R226, decision D27: a Tick on a halted core changes nothing of the machine (the model's own fields aside). -/
def Obligations.TickOnHaltedCoreDoesNothing : Prop :=
  ∀ (s : State) (keys : BitVec 16) (rnd : Byte),
    s.nextStrobe = .tick keys rnd → s.fault ≠ none →
    ∃ t, step s = .next t ∧
      { t with keys := s.keys, rnd := s.rnd, pending := s.pending, outputs := s.outputs, draws := s.draws } = s

/-- R31, R229, decision D27: once set, FAULT is changed by no step but a new Construction. -/
def Obligations.OnlyConstructionClearsFault : Prop :=
  ∀ s t : State, s.fault ≠ none → step s = .next t →
    t.fault = s.fault ∨ ∃ font image, s.nextStrobe = .construct font image ∧ t.fault = none

/-- R107, R58: no step blocks or stops: it gives a next state, unless it is the Construction of an image of more than
3584 bytes, which is refused. That a fatal condition counts as a next state is the model's reading of R225, R226 and
decision D27 (log 7). -/
def Obligations.EveryStepAnswers : Prop :=
  ∀ s : State, (∃ t, step s = .next t) ∨
    ∃ font image, s.nextStrobe = .construct font image ∧ 3584 < image.length ∧
      step s = .refused (.imageTooLong image.length)

/-- R240, R241, R242: one TimerStep on a core that is not halted counts both timers down to 0 and no further, presents
the display exactly where it is dirty, and touches nothing else. That the frame stands in `outputs`, and the read
ports beside it are quiet, is the model's choice (log 3). -/
def Obligations.TimerStepCountsDownAndFlushes : Prop :=
  ∀ s : State, s.nextStrobe = .timer60 → s.fault = none →
    ∃ t, step s = .next t ∧
      t.dt.toNat = s.dt.toNat - 1 ∧ t.st.toNat = s.st.toNat - 1 ∧ t.dirty = false ∧
      (s.dirty = true → t.outputs.frame = some s.disp) ∧ (s.dirty = false → t.outputs.frame = none) ∧
      t.outputs.snapshot = none ∧ t.outputs.screen = none ∧
      { t with dt := s.dt, st := s.st, dirty := s.dirty, outputs := s.outputs, pending := s.pending, draws := s.draws }
        = s

/-- R243, R249, decision D25 (log 10): on a core that is not halted a TimerStep asserts BEEP exactly where ST is
positive after its decrement, and no other step asserts it. A Tick moreover drives no output at all (R248, R249),
which for a Tick that takes a fatal condition is the model's choice, as is the place of the outputs (log 3, log 7). -/
def Obligations.OnlyTimerStepBeeps : Prop :=
  ∀ s t : State, s.fault = none → step s = .next t →
    (s.nextStrobe = .timer60 → (t.outputs.beep = true ↔ 0 < t.st.toNat)) ∧
    (s.nextStrobe ≠ .timer60 → t.outputs.beep = false) ∧
    (∀ keys rnd, s.nextStrobe = .tick keys rnd → t.outputs = .quiet)

/-- R262, decisions D21, D22, D27: reset() on a core that is not halted. -/
def Obligations.HostResetRestoresRegistersOnly : Prop :=
  ∀ s : State, s.nextStrobe = .reset → s.fault = none →
    ∃ t, step s = .next t ∧ (∀ r, t.reg r = 0) ∧ t.i = 0 ∧ t.pc.toNat = 0x200 ∧ t.sp = 0 ∧ t.entries = [] ∧
      t.dt = 0 ∧ t.st = 0 ∧ t.mem = s.mem ∧ t.disp = s.disp ∧ t.dirty = s.dirty ∧ t.fault = s.fault

/-- R58, R260, decisions D21 to D24: Construction with an image of at most 3584 bytes, on any core, halted or not. -/
def Obligations.ConstructionLoadsFontAndImage : Prop :=
  ∀ (s : State) (font : Vector Byte 80) (image : List Byte),
    s.nextStrobe = .construct font image → image.length ≤ 3584 →
    ∃ t, step s = .next t ∧
      (∀ a < 0x1000, t.mem.get a =
        if 0x050 ≤ a ∧ a < 0x0A0 then font.toList.getD (a - 0x050) 0
        else if 0x200 ≤ a ∧ a < 0x200 + image.length then image.getD (a - 0x200) 0
        else 0) ∧
      (∀ r, t.reg r = 0) ∧ t.i = 0 ∧ t.pc.toNat = 0x200 ∧ t.sp = 0 ∧ t.dt = 0 ∧ t.st = 0 ∧
      (∀ y x, pixel t.disp y x = false) ∧ t.dirty = false ∧ t.fault = none

/-- R254, R255, decision D33: the debug reads return the listed fields and change nothing, and a step without a strobe
changes nothing (the model's own fields aside). -/
def Obligations.DebugReadsChangeNothing : Prop :=
  ∀ s : State, s.fault = none →
    (s.nextStrobe = .snapshot → ∃ t, step s = .next t ∧
      t.outputs.snapshot = some ⟨s.pc, s.st, s.dt, s.stack.toList.take s.sp.val, s.v, s.i⟩ ∧
      { t with outputs := s.outputs, pending := s.pending, draws := s.draws } = s) ∧
    (s.nextStrobe = .screenRead → ∃ t, step s = .next t ∧ t.outputs.screen = some s.disp ∧
      { t with outputs := s.outputs, pending := s.pending, draws := s.draws } = s) ∧
    (s.nextStrobe = .stop → ∃ t, step s = .next t ∧
      { t with outputs := s.outputs, pending := s.pending, draws := s.draws } = s)

/-! ## Reset and invariants -/

/-- R33, decisions D21 to D24: the values after Construction with the default font and an empty image. That memory
outside font and image reads 0x00 is the rule's; the stack slots and the model's own fields are left out, being
choices (log 1, 2, 3, 6). -/
def Obligations.ResetLeavesTheListedValues : Prop :=
  (∀ r, State.reset.reg r = 0) ∧ State.reset.i = 0 ∧ State.reset.pc = 0x0200 ∧ State.reset.sp = 0 ∧
  State.reset.dt = 0 ∧ State.reset.st = 0 ∧ (∀ y x, pixel State.reset.disp y x = false) ∧
  State.reset.dirty = false ∧ State.reset.fault = none ∧
  (∀ g k : Nat, g < 16 → k < 5 → State.reset.mem.get (0x050 + 5 * g + k) = fontData.getD (5 * g + k) 0) ∧
  (∀ a, a < 0x050 ∨ 0x0A0 ≤ a → State.reset.mem.get a = 0)

/-- Memory is canonical and FAULT lawful at reset. -/
def Obligations.CanonicalFormHoldsAtReset : Prop := State.reset.Inv

/-- The memory keeps its canonical form, and FAULT holds only records the table of rule R220 allows, through every
step of every agent from every state where it is so. -/
def Obligations.EveryStepKeepsCanonicalForm : Prop :=
  ∀ s t : State, s.Inv → step s = .next t → t.Inv

/-- The bounds on PC and on the return addresses hold at reset. -/
def Obligations.PcBoundHoldsAtReset : Prop := State.reset.PcInv

/-- R103, R111, R113, decisions D8 and D20: on a core that is not halted PC stays at most 0x10FE and every return
address in use at most 0x1000, through every step of every agent, so that no 16-bit PC arithmetic ever wraps. -/
def Obligations.EveryStepKeepsPcBound : Prop :=
  ∀ s t : State, s.PcInv → step s = .next t → t.PcInv

/-! ## Which instructions write what -/

/-- R28, R30: only DRW and CLS change the display or set `dirty`, and no instruction clears `dirty`. -/
def Obligations.OnlyDrawAndClearChangeTheDisplay : Prop :=
  ∀ (i : Instr) (s t : State), s.Safe → exec i s = .next t → t.Safe →
    (t.disp ≠ s.disp ∨ t.dirty ≠ s.dirty → (∃ u, i = .cls u) ∨ ∃ x y n, i = .drw x y n) ∧
    (s.dirty = true → t.dirty = true)

/-- R20, R53: only LD B,Vx and LD [I],Vx change memory. -/
def Obligations.OnlyBcdAndBlockStoreChangeMemory : Prop :=
  ∀ (i : Instr) (s t : State), s.Safe → exec i s = .next t → t.Safe →
    (∃ a, t.mem.get a ≠ s.mem.get a) → ∃ x, i = .ldB x ∨ i = .storeRegs x

/-- R25: only CALL pushes and only RET pops; no other instruction touches the stack. -/
def Obligations.OnlyCallAndReturnChangeTheStack : Prop :=
  ∀ (i : Instr) (s t : State), s.Safe → exec i s = .next t → t.Safe →
    t.sp ≠ s.sp ∨ t.stack ≠ s.stack →
    (∃ nnn, i = .call nnn ∧ t.sp.val = s.sp.val + 1) ∨ (∃ u, i = .ret u ∧ t.sp.val + 1 = s.sp.val)

/-- R26, R27, R23: DT is written by FX15 only, ST by FX18 only, I by ANNN, FX1E and FX29 only. -/
def Obligations.TimersAndIndexHaveFewWriters : Prop :=
  ∀ (i : Instr) (s t : State), s.Safe → exec i s = .next t → t.Safe →
    (t.dt ≠ s.dt → ∃ x, i = .ldDtVx x) ∧ (t.st ≠ s.st → ∃ x, i = .ldStVx x) ∧
    (t.i ≠ s.i → (∃ nnn, i = .ldI nnn) ∨ ∃ x, i = .addI x ∨ i = .ldF x)

/-- R22, the flag order by decision D10: VF is written as a flag by exactly seven instructions, and besides those only
by an instruction whose destination X is register F. -/
def Obligations.VfHasSevenFlagWriters : Prop :=
  ∀ (i : Instr) (s t : State), s.Safe → exec i s = .next t → t.Safe → t.reg 0xF ≠ s.reg 0xF →
    (∃ x y, i = .addReg x y ∨ i = .subReg x y ∨ i = .shr x y ∨ i = .subnReg x y ∨ i = .shl x y) ∨
    (∃ x, i = .addI x) ∨ (∃ x y n, i = .drw x y n) ∨
    (∃ y nn, i = .ldImm 0xF nn ∨ i = .addImm 0xF nn ∨ i = .rnd 0xF nn ∨ i = .ldReg 0xF y ∨ i = .orReg 0xF y ∨
      i = .andReg 0xF y ∨ i = .xorReg 0xF y) ∨
    i = .ldVxDt 0xF ∨ i = .ldVxK 0xF ∨ i = .loadRegs 0xF

/-- R104, R105: PC falls through to `pcn` except for the skips (0 or 2 more), the key wait (back to pc0) and the four
jumps. -/
def Obligations.PcFollowsTheEffectTable : Prop :=
  ∀ (i : Instr) (s t : State), s.Safe → exec i s = .next t → t.Safe → t.pc ≠ s.pc →
    ((∃ x nn, i = .seImm x nn ∨ i = .sneImm x nn) ∨ (∃ x y u, i = .seReg x y u ∨ i = .sneReg x y u) ∨
        (∃ x, i = .skp x ∨ i = .sknp x)) ∧ t.pc = s.pc + 2 ∨
    (∃ x, i = .ldVxK x) ∧ t.pc = s.pc - 2 ∧ s.keys = 0 ∨
    (∃ nnn, (i = .jp nnn ∨ i = .call nnn) ∧ t.pc.toNat = nnn.toNat) ∨
    (∃ nnn, i = .jpV0 nnn ∧ t.pc.toNat = nnn.toNat + (s.reg 0).toNat) ∨
    (∃ u, i = .ret u ∧ s.entries = t.entries ++ [t.pc])

/-- R224, R220, R225, decisions D7, D8, D27 (log 7): an instruction that takes a fatal condition is CALL on a full
stack, RET on an empty one, or one of the four data-memory instructions reaching above 0xFFF, and the record is the
table's. -/
def Obligations.HandlersRaiseOnlyTheListedConditions : Prop :=
  ∀ (i : Instr) (s t : State), s.Safe → exec i s = .next t → ¬ t.Safe →
    ∃ kind, t.fault = some ⟨kind, encode i, s.pc - 2⟩ ∧
      ((kind = .stackOverflow ∧ s.sp.val = 16 ∧ ∃ nnn, i = .call nnn) ∨
       (kind = .stackUnderflow ∧ s.sp.val = 0 ∧ ∃ u, i = .ret u) ∨
       (kind = .addressOutOfRange (firstOffending s.i.toNat) ∧
         ((∃ x, i = .ldB x ∧ 0xFFF < s.i.toNat + 2) ∨
          (∃ x, (i = .storeRegs x ∨ i = .loadRegs x) ∧ 0xFFF < s.i.toNat + x.toNat) ∨
          ∃ x y n, i = .drw x y n ∧ 0 < n.toNat ∧ 0xFFF < s.i.toNat + (n.toNat - 1))))

/-- R108, decisions D18, D19: an instruction other than RND, SKP, SKNP and LD Vx,K is unaffected by KEYS and RND; SKP,
SKNP and LD Vx,K are unaffected by RND, and RND is unaffected by KEYS. After a fatal condition only FAULT is said to
be unaffected, everything else being unspecified (R228, log 7). -/
def Obligations.InputsReachOnlyFourInstructions : Prop :=
  ∀ (i : Instr) (s t : State) (keys : BitVec 16) (rnd : Byte), exec i s = .next t →
    ((∀ x, i ≠ .skp x ∧ i ≠ .sknp x ∧ i ≠ .ldVxK x) ∨ keys = s.keys) →
    ((∀ x nn, i ≠ .rnd x nn) ∨ rnd = s.rnd) →
    ∃ t', exec i { s with keys := keys, rnd := rnd } = .next t' ∧ t'.fault = t.fault ∧
      (t.Safe → t' = { t with keys := keys, rnd := rnd })

/-- R246, R182 (d): no instruction's effect on anything else depends on ST, `dirty` or the outputs, and, DRW aside,
none depends on the display. After a fatal condition only FAULT is said not to depend on them, everything else being
unspecified (R228, log 7). -/
def Obligations.SoundAndDisplayAreWriteOnly : Prop :=
  ∀ (i : Instr) (s t : State) (st : Byte) (dirty : Bool) (disp : Display) (outputs : Outputs),
    exec i s = .next t → ((∀ x y n, i ≠ .drw x y n) ∨ disp = s.disp) →
    ∃ t', exec i { s with st := st, dirty := dirty, disp := disp, outputs := outputs } = .next t' ∧
      t'.fault = t.fault ∧
      (t.Safe → { t' with st := t.st, dirty := t.dirty, disp := t.disp, outputs := t.outputs } = t)

/-! ## Jump, call, return -/

/-- R110. -/
def Obligations.JumpGoesToNNN : Prop :=
  ∀ (nnn : Addr) (s : State), (encode (.jp nnn)).toNat = 0x1000 + nnn.toNat ∧
    ∃ t, exec (.jp nnn) s = .next t ∧ t.pc.toNat = nnn.toNat ∧ { t with pc := s.pc } = s

/-- R111, R223, decisions D8 and D9: with room on the stack, the advanced PC is pushed and PC is NNN; with 16 entries
in use, StackOverflow, a next state with the record of R225 and decision D27 (log 7). That slots above the pushed one
keep their contents is the model's choice (log 6). -/
def Obligations.CallPushesTheAdvancedPc : Prop :=
  ∀ (nnn : Addr) (s : State), (encode (.call nnn)).toNat = 0x2000 + nnn.toNat ∧
    (∀ h : s.sp.val < 16, ∃ t, exec (.call nnn) s = .next t ∧
      t.sp.val = s.sp.val + 1 ∧ t.stack[s.sp.val] = s.pc ∧ t.pc.toNat = nnn.toNat ∧
      (∀ (k : Nat) (hk : k < 16), k ≠ s.sp.val → t.stack[k] = s.stack[k]) ∧ t.entries = s.entries ++ [s.pc] ∧
      { t with pc := s.pc, sp := s.sp, stack := s.stack } = s) ∧
    (s.sp.val = 16 → Raises (exec (.call nnn) s) .stackOverflow (encode (.call nnn)) (s.pc - 2))

/-- R112, R222, decisions D3 for a nonzero X nibble (log 8) and D9 for SP and slots: with an entry on the stack, the
newest one is popped into PC; on an empty stack, StackUnderflow, a next state with the record of R225 and decision D27
(log 7). R112 says that the popped slot keeps its contents; that the slots above it do is the model's choice (log 6).
-/
def Obligations.ReturnPopsTheNewestEntry : Prop :=
  ∀ (u : Nib) (s : State), (encode (.ret u)).toNat = 0x00EE + 0x100 * u.toNat ∧
    (0 < s.sp.val → ∃ t, exec (.ret u) s = .next t ∧
      t.sp.val = s.sp.val - 1 ∧ s.entries = t.entries ++ [t.pc] ∧ { t with pc := s.pc, sp := s.sp } = s) ∧
    (s.sp.val = 0 → Raises (exec (.ret u) s) .stackUnderflow (encode (.ret u)) (s.pc - 2))

/-- R113, decision D20: NNN + V0 with no mask and no carry out. -/
def Obligations.JumpV0AddsV0 : Prop :=
  ∀ (nnn : Addr) (s : State), (encode (.jpV0 nnn)).toNat = 0xB000 + nnn.toNat ∧
    ∃ t, exec (.jpV0 nnn) s = .next t ∧ t.pc.toNat = nnn.toNat + (s.reg 0).toNat ∧ { t with pc := s.pc } = s

/-- R109, R111, R112, decision D9: a CALL, then a RET executed at any later PC with the stack entries as the CALL left
them, restores PC to the instruction after the CALL and the stack entries to what they were. What stands in the slots
at or above SP, where calls made in between have written, does not matter (R25). -/
def Obligations.CallThenReturnComesBack : Prop :=
  ∀ (nnn : Addr) (u : Nib) (s t s' : State), s.sp.val < 16 → exec (.call nnn) s = .next t →
    s'.sp = t.sp → s'.entries = t.entries →
    ∃ t', exec (.ret u) s' = .next t' ∧ t'.pc = s.pc ∧ t'.sp = s.sp ∧ t'.entries = s.entries

/-! ## Skips -/

/-- R120, R121: skip on a register and an immediate. -/
def Obligations.SkipOnImmediate : Prop :=
  ∀ (x : Nib) (nn : Byte) (s : State),
    (encode (.seImm x nn)).toNat = 0x3000 + 0x100 * x.toNat + nn.toNat ∧
    (encode (.sneImm x nn)).toNat = 0x4000 + 0x100 * x.toNat + nn.toNat ∧
    (∃ t, exec (.seImm x nn) s = .next t ∧ { t with pc := s.pc } = s ∧
      t.pc.toNat = if (s.reg x).toNat = nn.toNat then (s.pc.toNat + 2) % 65536 else s.pc.toNat) ∧
    (∃ t, exec (.sneImm x nn) s = .next t ∧ { t with pc := s.pc } = s ∧
      t.pc.toNat = if (s.reg x).toNat = nn.toNat then s.pc.toNat else (s.pc.toNat + 2) % 65536)

/-- R122, R123: skip on two registers, whatever the low nibble. That a nonzero low nibble is ignored is decision D3
(R79; log 8, log 12); R122 lets a model refuse those forms, and this model runs them. -/
def Obligations.SkipOnRegisters : Prop :=
  ∀ (x y u : Nib) (s : State),
    (encode (.seReg x y u)).toNat = 0x5000 + 0x100 * x.toNat + 0x10 * y.toNat + u.toNat ∧
    (encode (.sneReg x y u)).toNat = 0x9000 + 0x100 * x.toNat + 0x10 * y.toNat + u.toNat ∧
    (∃ t, exec (.seReg x y u) s = .next t ∧ { t with pc := s.pc } = s ∧
      t.pc.toNat = if (s.reg x).toNat = (s.reg y).toNat then (s.pc.toNat + 2) % 65536 else s.pc.toNat) ∧
    (∃ t, exec (.sneReg x y u) s = .next t ∧ { t with pc := s.pc } = s ∧
      t.pc.toNat = if (s.reg x).toNat = (s.reg y).toNat then s.pc.toNat else (s.pc.toNat + 2) % 65536)

/-- R190, R191, decision D16: skip on a key; a value above 0x0F is never pressed. -/
def Obligations.SkipOnKey : Prop :=
  ∀ (x : Nib) (s : State),
    (encode (.skp x)).toNat = 0xE09E + 0x100 * x.toNat ∧ (encode (.sknp x)).toNat = 0xE0A1 + 0x100 * x.toNat ∧
    (∃ t, exec (.skp x) s = .next t ∧ { t with pc := s.pc } = s ∧
      t.pc.toNat = if (s.reg x).toNat < 16 ∧ s.keys.getLsbD (s.reg x).toNat = true
        then (s.pc.toNat + 2) % 65536 else s.pc.toNat) ∧
    (∃ t, exec (.sknp x) s = .next t ∧ { t with pc := s.pc } = s ∧
      t.pc.toNat = if (s.reg x).toNat < 16 ∧ s.keys.getLsbD (s.reg x).toNat = true
        then s.pc.toNat else (s.pc.toNat + 2) % 65536)

/-! ## Immediate and register arithmetic -/

/-- R130, R131: immediate load, and immediate add without a flag. -/
def Obligations.ImmediateLoadAndAdd : Prop :=
  ∀ (x : Nib) (nn : Byte) (s : State),
    (encode (.ldImm x nn)).toNat = 0x6000 + 0x100 * x.toNat + nn.toNat ∧
    (encode (.addImm x nn)).toNat = 0x7000 + 0x100 * x.toNat + nn.toNat ∧
    (∃ t, exec (.ldImm x nn) s = .next t ∧ t.reg x = nn ∧ (∀ r, r ≠ x → t.reg r = s.reg r) ∧
      { t with v := s.v } = s) ∧
    (∃ t, exec (.addImm x nn) s = .next t ∧ (t.reg x).toNat = ((s.reg x).toNat + nn.toNat) % 256 ∧
      (∀ r, r ≠ x → t.reg r = s.reg r) ∧ { t with v := s.v } = s)

/-- R141 to R144: assign and the three logic operations, bit by bit, with VF untouched unless it is X. -/
def Obligations.AssignAndLogic : Prop :=
  ∀ (x y : Nib) (s : State),
    ((encode (.ldReg x y)).toNat = 0x8000 + 0x100 * x.toNat + 0x10 * y.toNat ∧
     (encode (.orReg x y)).toNat = 0x8001 + 0x100 * x.toNat + 0x10 * y.toNat ∧
     (encode (.andReg x y)).toNat = 0x8002 + 0x100 * x.toNat + 0x10 * y.toNat ∧
     (encode (.xorReg x y)).toNat = 0x8003 + 0x100 * x.toNat + 0x10 * y.toNat) ∧
    (∃ t, exec (.ldReg x y) s = .next t ∧ t.reg x = s.reg y ∧
      (∀ r, r ≠ x → t.reg r = s.reg r) ∧ { t with v := s.v } = s) ∧
    (∃ t, exec (.orReg x y) s = .next t ∧
      (∀ k < 8, (t.reg x).getLsbD k = ((s.reg x).getLsbD k || (s.reg y).getLsbD k)) ∧
      (∀ r, r ≠ x → t.reg r = s.reg r) ∧ { t with v := s.v } = s) ∧
    (∃ t, exec (.andReg x y) s = .next t ∧
      (∀ k < 8, (t.reg x).getLsbD k = ((s.reg x).getLsbD k && (s.reg y).getLsbD k)) ∧
      (∀ r, r ≠ x → t.reg r = s.reg r) ∧ { t with v := s.v } = s) ∧
    (∃ t, exec (.xorReg x y) s = .next t ∧
      (∀ k < 8, (t.reg x).getLsbD k = ((s.reg x).getLsbD k != (s.reg y).getLsbD k)) ∧
      (∀ r, r ≠ x → t.reg r = s.reg r) ∧ { t with v := s.v } = s)

/-- R145, R140, decision D10 for X = F: the sum wraps, VF is the carry, and with X = F the flag is what remains. -/
def Obligations.AddSetsCarry : Prop :=
  ∀ (x y : Nib) (s : State), (encode (.addReg x y)).toNat = 0x8004 + 0x100 * x.toNat + 0x10 * y.toNat ∧
    ∃ t, exec (.addReg x y) s = .next t ∧
      (t.reg 0xF).toNat = (if (s.reg x).toNat + (s.reg y).toNat > 255 then 1 else 0) ∧
      (x ≠ 0xF → (t.reg x).toNat = ((s.reg x).toNat + (s.reg y).toNat) % 256) ∧
      (∀ r, r ≠ x → r ≠ 0xF → t.reg r = s.reg r) ∧ { t with v := s.v } = s

/-- R146, R148, R140, decision D10 for X = F: both subtractions wrap, VF is 1 exactly where there is no borrow. -/
def Obligations.SubtractSetsNoBorrow : Prop :=
  ∀ (x y : Nib) (s : State),
    (encode (.subReg x y)).toNat = 0x8005 + 0x100 * x.toNat + 0x10 * y.toNat ∧
    (encode (.subnReg x y)).toNat = 0x8007 + 0x100 * x.toNat + 0x10 * y.toNat ∧
    (∃ t, exec (.subReg x y) s = .next t ∧
      (t.reg 0xF).toNat = (if (s.reg x).toNat ≥ (s.reg y).toNat then 1 else 0) ∧
      (x ≠ 0xF → ((t.reg x).toNat : Int) = ((s.reg x).toNat - (s.reg y).toNat : Int) % 256) ∧
      (∀ r, r ≠ x → r ≠ 0xF → t.reg r = s.reg r) ∧ { t with v := s.v } = s) ∧
    (∃ t, exec (.subnReg x y) s = .next t ∧
      (t.reg 0xF).toNat = (if (s.reg y).toNat ≥ (s.reg x).toNat then 1 else 0) ∧
      (x ≠ 0xF → ((t.reg x).toNat : Int) = ((s.reg y).toNat - (s.reg x).toNat : Int) % 256) ∧
      (∀ r, r ≠ x → r ≠ 0xF → t.reg r = s.reg r) ∧ { t with v := s.v } = s)

/-- R147, R149, R140, decisions D10 and D11: both shifts work on VX in place, whatever Y, and VF is the bit shifted
out. -/
def Obligations.ShiftsSetTheBitShiftedOut : Prop :=
  ∀ (x u : Nib) (s : State),
    (encode (.shr x u)).toNat = 0x8006 + 0x100 * x.toNat + 0x10 * u.toNat ∧
    (encode (.shl x u)).toNat = 0x800E + 0x100 * x.toNat + 0x10 * u.toNat ∧
    (∃ t, exec (.shr x u) s = .next t ∧ (t.reg 0xF).toNat = (s.reg x).toNat % 2 ∧
      (x ≠ 0xF → (t.reg x).toNat = (s.reg x).toNat / 2) ∧
      (∀ r, r ≠ x → r ≠ 0xF → t.reg r = s.reg r) ∧ { t with v := s.v } = s) ∧
    (∃ t, exec (.shl x u) s = .next t ∧ (t.reg 0xF).toNat = (s.reg x).toNat / 128 ∧
      (x ≠ 0xF → (t.reg x).toNat = 2 * (s.reg x).toNat % 256) ∧
      (∀ r, r ≠ x → r ≠ 0xF → t.reg r = s.reg r) ∧ { t with v := s.v } = s)

/-! ## Index, random -/

/-- R160: I from an immediate. -/
def Obligations.LoadIndexLoadsNNN : Prop :=
  ∀ (nnn : Addr) (s : State), (encode (.ldI nnn)).toNat = 0xA000 + nnn.toNat ∧
    ∃ t, exec (.ldI nnn) s = .next t ∧ t.i.toNat = nnn.toNat ∧ { t with i := s.i } = s

/-- R204, decisions D14 and D24: I at the glyph of a value, the value used in full. -/
def Obligations.FontIndexPointsAtTheGlyph : Prop :=
  ∀ (x : Nib) (s : State), (encode (.ldF x)).toNat = 0xF029 + 0x100 * x.toNat ∧
    ∃ t, exec (.ldF x) s = .next t ∧ t.i.toNat = 0x050 + (s.reg x).toNat * 5 ∧ { t with i := s.i } = s

/-- R161, decision D12: the flag is always written and tests the 16-bit value stored; with X = F the old VF is the
addend. -/
def Obligations.AddIndexSetsOverflowFlag : Prop :=
  ∀ (x : Nib) (s : State), (encode (.addI x)).toNat = 0xF01E + 0x100 * x.toNat ∧
    ∃ t, exec (.addI x) s = .next t ∧ t.i.toNat = (s.i.toNat + (s.reg x).toNat) % 65536 ∧
      (t.reg 0xF).toNat = (if t.i.toNat > 0xFFF then 1 else 0) ∧
      (∀ r, r ≠ 0xF → t.reg r = s.reg r) ∧ { t with v := s.v, i := s.i } = s

/-- R170, decision D19 (log 1): bit by bit the random byte of this Tick and the immediate, for every random byte. -/
def Obligations.RandomIsMasked : Prop :=
  ∀ (x : Nib) (nn : Byte) (s : State), (encode (.rnd x nn)).toNat = 0xC000 + 0x100 * x.toNat + nn.toNat ∧
    ∃ t, exec (.rnd x nn) s = .next t ∧ (∀ k < 8, (t.reg x).getLsbD k = (s.rnd.getLsbD k && nn.getLsbD k)) ∧
      (∀ r, r ≠ x → t.reg r = s.reg r) ∧ { t with v := s.v } = s

/-! ## Display -/

/-- R180, decisions D7 and D15: where every sprite byte lies inside memory, each cell is XORed with the sprite bit on
it, VF is 1 exactly where a lit cell met a 1 bit, `dirty` is set exactly where the sprite has a 1 bit, and nothing
else changes; else AddressOutOfRange, a next state with the record of R225 and decision D27 (log 7). -/
def Obligations.DrawXorsTheSprite : Prop :=
  ∀ (x y n : Nib) (s : State),
    (encode (.drw x y n)).toNat = 0xD000 + 0x100 * x.toNat + 0x10 * y.toNat + n.toNat ∧
    (n.toNat = 0 ∨ s.i.toNat + (n.toNat - 1) ≤ 0xFFF → ∃ t, exec (.drw x y n) s = .next t ∧
      (∀ py px, pixel t.disp py px = (pixel s.disp py px != spriteAt s x y n py px)) ∧
      (t.reg 0xF = 0 ∨ t.reg 0xF = 1) ∧
      (t.reg 0xF = 1 ↔ ∃ py px, spriteAt s x y n py px = true ∧ pixel s.disp py px = true) ∧
      (t.dirty = true ↔ s.dirty = true ∨ ∃ py px, spriteAt s x y n py px = true) ∧
      (∀ r, r ≠ 0xF → t.reg r = s.reg r) ∧ { t with v := s.v, disp := s.disp, dirty := s.dirty } = s) ∧
    (0 < n.toNat → 0xFFF < s.i.toNat + (n.toNat - 1) →
      Raises (exec (.drw x y n) s) (.addressOutOfRange (firstOffending s.i.toNat)) (encode (.drw x y n)) (s.pc - 2))

/-- R182 (a), (b), which the spec derives from R180: a second DRW with the same I, memory, VX, VY and N on the display
the first one left restores the display exactly, and its VF is 1 exactly where a cell addressed by a 1 bit was lit
just before it. -/
def Obligations.DrawingTwiceRestoresTheDisplay : Prop :=
  ∀ (x y n : Nib) (s t s' : State), (n.toNat = 0 ∨ s.i.toNat + (n.toNat - 1) ≤ 0xFFF) →
    exec (.drw x y n) s = .next t →
    s'.disp = t.disp → s'.mem = s.mem → s'.i = s.i → s'.reg x = s.reg x → s'.reg y = s.reg y →
    ∃ t', exec (.drw x y n) s' = .next t' ∧ t'.disp = s.disp ∧
      (t'.reg 0xF = 1 ↔ ∃ py px, spriteAt s' x y n py px = true ∧ pixel s'.disp py px = true)

/-- R181, decision D3 for a nonzero X nibble (log 8): every cell false, `dirty` set whatever it was, VF and everything
else untouched; one flush then presents the blank display and clears `dirty` (R242). That the frame stands in
`outputs` is the model's choice (log 3). -/
def Obligations.ClearBlanksTheDisplay : Prop :=
  ∀ (u : Nib) (s : State), (encode (.cls u)).toNat = 0x00E0 + 0x100 * u.toNat ∧
    ∃ t, exec (.cls u) s = .next t ∧ (∀ py px, pixel t.disp py px = false) ∧ t.dirty = true ∧
      t.timerStep.dirty = false ∧ t.timerStep.outputs.frame = some t.disp ∧
      { t with disp := s.disp, dirty := s.dirty } = s

/-! ## Keypad wait, timers -/

/-- R192, decision D17 (log 11): with no key pressed PC goes back to pc0 and nothing else changes; else the lowest
pressed key code goes to VX and PC falls through. -/
def Obligations.KeyWaitRetriesOrLoads : Prop :=
  ∀ (x : Nib) (s : State), (encode (.ldVxK x)).toNat = 0xF00A + 0x100 * x.toNat ∧
    (s.keys = 0 → ∃ t, exec (.ldVxK x) s = .next t ∧ t.pc = s.pc - 2 ∧ { t with pc := s.pc } = s) ∧
    (s.keys ≠ 0 → ∃ t, exec (.ldVxK x) s = .next t ∧
      (t.reg x).toNat < 16 ∧ s.keys.getLsbD (t.reg x).toNat = true ∧
      (∀ k < (t.reg x).toNat, s.keys.getLsbD k = false) ∧
      (∀ r, r ≠ x → t.reg r = s.reg r) ∧ { t with v := s.v } = s)

/-- R200, R201, R202: the three timer moves. -/
def Obligations.TimerMoves : Prop :=
  ∀ (x : Nib) (s : State),
    ((encode (.ldVxDt x)).toNat = 0xF007 + 0x100 * x.toNat ∧ (encode (.ldDtVx x)).toNat = 0xF015 + 0x100 * x.toNat ∧
     (encode (.ldStVx x)).toNat = 0xF018 + 0x100 * x.toNat) ∧
    (∃ t, exec (.ldVxDt x) s = .next t ∧ t.reg x = s.dt ∧ (∀ r, r ≠ x → t.reg r = s.reg r) ∧
      { t with v := s.v } = s) ∧
    (∃ t, exec (.ldDtVx x) s = .next t ∧ t.dt = s.reg x ∧ { t with dt := s.dt } = s) ∧
    (∃ t, exec (.ldStVx x) s = .next t ∧ t.st = s.reg x ∧ { t with st := s.st } = s)

/-! ## Data memory -/

/-- R203, decision D7: the three decimal digits at I, I + 1, I + 2, and every other byte of memory as before; where I
+ 2 leaves memory, AddressOutOfRange, a next state with the record of R225 and decision D27 (log 7). -/
def Obligations.BcdStoresThreeDigits : Prop :=
  ∀ (x : Nib) (s : State), (encode (.ldB x)).toNat = 0xF033 + 0x100 * x.toNat ∧
    (s.ea 2 ≤ 0xFFF → s.mem.wf = true → ∃ t, exec (.ldB x) s = .next t ∧
      (t.mem.get (s.ea 0)).toNat = (s.reg x).toNat / 100 ∧
      (t.mem.get (s.ea 1)).toNat = (s.reg x).toNat / 10 % 10 ∧
      (t.mem.get (s.ea 2)).toNat = (s.reg x).toNat % 10 ∧
      (∀ a, a < s.ea 0 ∨ s.ea 2 < a → t.mem.get a = s.mem.get a) ∧ { t with mem := s.mem } = s) ∧
    (0xFFF < s.ea 2 →
      Raises (exec (.ldB x) s) (.addressOutOfRange (firstOffending (s.ea 0))) (encode (.ldB x)) (s.pc - 2))

/-- R205, decisions D7 and D13: V0 to VX at I to I + X, and every other byte of memory, I and every register as
before; where I + X leaves memory, AddressOutOfRange, a next state with the record of R225 and decision D27 (log 7).
-/ def Obligations.BlockStoreWritesV0ToVx : Prop := ∀ (x : Nib) (s : State), (encode (.storeRegs x)).toNat = 0xF055 +
0x100 * x.toNat ∧ (s.ea x.toNat ≤ 0xFFF → s.mem.wf = true → ∃ t, exec (.storeRegs x) s = .next t ∧ (∀ k : Nib, k.toNat
≤ x.toNat → t.mem.get (s.ea k.toNat) = s.reg k) ∧ (∀ a, a < s.ea 0 ∨ s.ea x.toNat < a → t.mem.get a = s.mem.get a) ∧ {
t with mem := s.mem } = s) ∧ (0xFFF < s.ea x.toNat → Raises (exec (.storeRegs x) s) (.addressOutOfRange
(firstOffending (s.ea 0))) (encode (.storeRegs x)) (s.pc - 2)) /-- R206, decisions D7 and D13: V0 to VX from I to I +
X, and the registers above VX, memory and I as before; where I + X leaves memory, AddressOutOfRange, a next state with
the record of R225 and decision D27 (log 7). -/
def Obligations.BlockLoadReadsV0ToVx : Prop :=
  ∀ (x : Nib) (s : State), (encode (.loadRegs x)).toNat = 0xF065 + 0x100 * x.toNat ∧
    (s.ea x.toNat ≤ 0xFFF → ∃ t, exec (.loadRegs x) s = .next t ∧
      (∀ k : Nib, k.toNat ≤ x.toNat → t.reg k = s.mem.get (s.ea k.toNat)) ∧
      (∀ k : Nib, x.toNat < k.toNat → t.reg k = s.reg k) ∧ { t with v := s.v } = s) ∧
    (0xFFF < s.ea x.toNat →
      Raises (exec (.loadRegs x) s) (.addressOutOfRange (firstOffending (s.ea 0))) (encode (.loadRegs x)) (s.pc - 2))

/-- R63, decision D29: a completed LD [I],Vx or LD B,Vx is seen by the very next fetch. At any PC whose two bytes lie
inside memory the fetch reads, for each of its two bytes on its own, the byte just stored there where the store covers
it, and what memory held before where it does not. -/
def Obligations.NextFetchSeesTheStore : Prop :=
  ∀ (x : Nib) (s t : State), s.mem.wf = true → s.pc.toNat ≤ 0xFFE →
    (s.ea x.toNat ≤ 0xFFF → exec (.storeRegs x) s = .next t →
      ∃ (op : Word) (byte : Fin 2 → Byte), fetch t = .ok op ∧
        op.toNat = (byte 0).toNat * 256 + (byte 1).toNat ∧
        ∀ d : Fin 2,
          (∀ k : Nib, k.toNat ≤ x.toNat → s.pc.toNat + d.val = s.ea k.toNat → byte d = s.reg k) ∧
          (s.pc.toNat + d.val < s.ea 0 ∨ s.ea x.toNat < s.pc.toNat + d.val →
            byte d = s.mem.get (s.pc.toNat + d.val))) ∧
    (s.ea 2 ≤ 0xFFF → exec (.ldB x) s = .next t →
      ∃ (op : Word) (byte : Fin 2 → Byte), fetch t = .ok op ∧
        op.toNat = (byte 0).toNat * 256 + (byte 1).toNat ∧
        ∀ d : Fin 2,
          (s.pc.toNat + d.val = s.ea 0 → (byte d).toNat = (s.reg x).toNat / 100) ∧
          (s.pc.toNat + d.val = s.ea 1 → (byte d).toNat = (s.reg x).toNat / 10 % 10) ∧
          (s.pc.toNat + d.val = s.ea 2 → (byte d).toNat = (s.reg x).toNat % 10) ∧
          (s.pc.toNat + d.val < s.ea 0 ∨ s.ea 2 < s.pc.toNat + d.val →
            byte d = s.mem.get (s.pc.toNat + d.val)))
end

