-- ==== Sys2Proof/Laws/Decode.lean ====
section
/-!
SUPPORT. Words as numbers: the fields of a word by division (30_encoding.md R72), a packed word by multiplication
(R71), and so the fields of a packed word and a word as the packing of its fields.
-/

namespace Sys2Proof

theorem append_toNat {n m : Nat} (a : BitVec n) (b : BitVec m) : (a ++ b).toNat = a.toNat * 2 ^ m + b.toNat := by
  rw [BitVec.toNat_append, ← Nat.shiftLeft_add_eq_or_of_lt b.isLt, Nat.shiftLeft_eq]

theorem fieldP_toNat (op : Word) : (fieldP op).toNat = op.toNat / 4096 := by
  have := op.isLt
  simp [fieldP, BitVec.extractLsb'_toNat, Nat.shiftRight_eq_div_pow]
  omega

theorem fieldX_toNat (op : Word) : (fieldX op).toNat = op.toNat / 256 % 16 := by
  simp [fieldX, BitVec.extractLsb'_toNat, Nat.shiftRight_eq_div_pow]

theorem fieldY_toNat (op : Word) : (fieldY op).toNat = op.toNat / 16 % 16 := by
  simp [fieldY, BitVec.extractLsb'_toNat, Nat.shiftRight_eq_div_pow]

theorem fieldN_toNat (op : Word) : (fieldN op).toNat = op.toNat % 16 := by
  simp [fieldN, BitVec.extractLsb'_toNat]

theorem fieldNN_toNat (op : Word) : (fieldNN op).toNat = op.toNat % 256 := by
  simp [fieldNN, BitVec.extractLsb'_toNat]

theorem fieldNNN_toNat (op : Word) : (fieldNNN op).toNat = op.toNat % 4096 := by
  simp [fieldNNN, BitVec.extractLsb'_toNat]

theorem packA_toNat (p : Nib) (nnn : Addr) : (packA p nnn).toNat = p.toNat * 4096 + nnn.toNat := by
  simpa [packA] using append_toNat p nnn

theorem packXB_toNat (p x : Nib) (nn : Byte) :
    (packXB p x nn).toNat = p.toNat * 4096 + x.toNat * 256 + nn.toNat := by
  have h := append_toNat (p ++ x) nn
  rw [append_toNat p x] at h
  rw [packXB, h]
  generalize p.toNat = a, x.toNat = b, nn.toNat = c
  omega

theorem packXYN_toNat (p x y n : Nib) :
    (packXYN p x y n).toNat = p.toNat * 4096 + x.toNat * 256 + y.toNat * 16 + n.toNat := by
  have h := append_toNat (p ++ x ++ y) n
  have h' := append_toNat (p ++ x) y
  have h'' := append_toNat p x
  simp only [packXYN] at *
  omega

theorem wordOfBytes_toNat (hi lo : Byte) : (wordOfBytes hi lo).toNat = hi.toNat * 256 + lo.toNat := by
  simpa [wordOfBytes] using append_toNat hi lo

/-- The last of the sixteen values of a nibble. -/
theorem nib_eq_fifteen {p : Nib} (h0 : p ≠ 0) (h1 : p ≠ 1) (h2 : p ≠ 2) (h3 : p ≠ 3) (h4 : p ≠ 4) (h5 : p ≠ 5)
    (h6 : p ≠ 6) (h7 : p ≠ 7) (h8 : p ≠ 8) (h9 : p ≠ 9) (hA : p ≠ 10) (hB : p ≠ 11) (hC : p ≠ 12) (hD : p ≠ 13)
    (hE : p ≠ 14) : p = 15 := by
  have hp := p.isLt
  simp only [ne_eq, BitVec.toNat_eq, BitVec.ofNat_eq_ofNat, BitVec.toNat_ofNat] at *
  omega

@[simp] theorem fieldP_packA (p : Nib) (nnn : Addr) : fieldP (packA p nnn) = p := by
  apply BitVec.eq_of_toNat_eq; rw [fieldP_toNat, packA_toNat]; omega

@[simp] theorem fieldNNN_packA (p : Nib) (nnn : Addr) : fieldNNN (packA p nnn) = nnn := by
  apply BitVec.eq_of_toNat_eq; rw [fieldNNN_toNat, packA_toNat]; omega

@[simp] theorem fieldP_packXB (p x : Nib) (nn : Byte) : fieldP (packXB p x nn) = p := by
  apply BitVec.eq_of_toNat_eq; rw [fieldP_toNat, packXB_toNat]; omega

@[simp] theorem fieldX_packXB (p x : Nib) (nn : Byte) : fieldX (packXB p x nn) = x := by
  apply BitVec.eq_of_toNat_eq; rw [fieldX_toNat, packXB_toNat]; omega

@[simp] theorem fieldNN_packXB (p x : Nib) (nn : Byte) : fieldNN (packXB p x nn) = nn := by
  apply BitVec.eq_of_toNat_eq; rw [fieldNN_toNat, packXB_toNat]; omega

@[simp] theorem fieldP_packXYN (p x y n : Nib) : fieldP (packXYN p x y n) = p := by
  apply BitVec.eq_of_toNat_eq; rw [fieldP_toNat, packXYN_toNat]; omega

@[simp] theorem fieldX_packXYN (p x y n : Nib) : fieldX (packXYN p x y n) = x := by
  apply BitVec.eq_of_toNat_eq; rw [fieldX_toNat, packXYN_toNat]; omega

@[simp] theorem fieldY_packXYN (p x y n : Nib) : fieldY (packXYN p x y n) = y := by
  apply BitVec.eq_of_toNat_eq; rw [fieldY_toNat, packXYN_toNat]; omega

@[simp] theorem fieldN_packXYN (p x y n : Nib) : fieldN (packXYN p x y n) = n := by
  apply BitVec.eq_of_toNat_eq; rw [fieldN_toNat, packXYN_toNat]; omega

theorem packA_fields (op : Word) : packA (fieldP op) (fieldNNN op) = op := by
  apply BitVec.eq_of_toNat_eq; rw [packA_toNat, fieldP_toNat, fieldNNN_toNat]; omega

theorem packXB_fields (op : Word) : packXB (fieldP op) (fieldX op) (fieldNN op) = op := by
  apply BitVec.eq_of_toNat_eq; rw [packXB_toNat, fieldP_toNat, fieldX_toNat, fieldNN_toNat]; omega

theorem packXYN_fields (op : Word) : packXYN (fieldP op) (fieldX op) (fieldY op) (fieldN op) = op := by
  apply BitVec.eq_of_toNat_eq
  rw [packXYN_toNat, fieldP_toNat, fieldX_toNat, fieldY_toNat, fieldN_toNat]
  omega

/-! ## Masks -/

theorem packA_and (p q : Nib) (a b : Addr) : packA p a &&& packA q b = packA (p &&& q) (a &&& b) :=
  BitVec.and_append

theorem packXB_and (p q x y : Nib) (a b : Byte) :
    packXB p x a &&& packXB q y b = packXB (p &&& q) (x &&& y) (a &&& b) :=
  BitVec.and_append.trans (congrArg (· ++ (a &&& b)) BitVec.and_append)

theorem packXYN_and (p q x x' y y' n n' : Nib) :
    packXYN p x y n &&& packXYN q x' y' n' = packXYN (p &&& q) (x &&& x') (y &&& y') (n &&& n') :=
  BitVec.and_append.trans
    (congrArg (· ++ (n &&& n')) (BitVec.and_append.trans (congrArg (· ++ (y &&& y')) BitVec.and_append)))

theorem and_none {w : Nat} (a : BitVec w) : a &&& 0 = 0 := BitVec.and_zero

theorem nib_and_all (a : Nib) : a &&& 0xF = a := BitVec.and_allOnes

theorem byte_and_all (a : Byte) : a &&& 0xFF = a := BitVec.and_allOnes

/-- The mask 0xF000 keeps P alone. -/
theorem packA_maskP (p : Nib) (a : Addr) : packA p a &&& 0xF000 = packA p 0 := by
  rw [show (0xF000 : Word) = packA 0xF 0 from rfl, packA_and, and_none, nib_and_all]

/-- The mask 0xF000 keeps P alone. -/
theorem packXB_maskP (p x : Nib) (nn : Byte) : packXB p x nn &&& 0xF000 = packXB p 0 0 := by
  rw [show (0xF000 : Word) = packXB 0xF 0 0 from rfl, packXB_and, and_none, and_none, nib_and_all]

/-- The mask 0xF0FF keeps P and NN. -/
theorem packXB_maskPNN (p x : Nib) (nn : Byte) : packXB p x nn &&& 0xF0FF = packXB p 0 nn := by
  rw [show (0xF0FF : Word) = packXB 0xF 0 0xFF from rfl, packXB_and, and_none, nib_and_all, byte_and_all]

/-- The mask 0xF000 keeps P alone. -/
theorem packXYN_maskP (p x y n : Nib) : packXYN p x y n &&& 0xF000 = packXYN p 0 0 0 := by
  rw [show (0xF000 : Word) = packXYN 0xF 0 0 0 from rfl, packXYN_and, and_none, and_none, and_none, nib_and_all]

/-- The mask 0xF00F keeps P and N. -/
theorem packXYN_maskPN (p x y n : Nib) : packXYN p x y n &&& 0xF00F = packXYN p 0 0 n := by
  rw [show (0xF00F : Word) = packXYN 0xF 0 0 0xF from rfl, packXYN_and, and_none, and_none, nib_and_all, nib_and_all]

end Sys2Proof
end

