-- ==== Sys2Proof/Laws/Memory.lean ====
section
/-!
SUPPORT. The laws of memory: reading what was written, leaving the rest alone, keeping the canonical form, and what
each memory primitive answers.
-/

namespace Sys2Proof.Machine

theorem Memory.wfFrom_mono {lo lo' : Nat} {m : Memory} (h : lo ≤ lo') (hm : Memory.wfFrom lo' m = true) :
    Memory.wfFrom lo m = true := by
  cases m with
  | nil => rfl
  | cons c t =>
    simp only [Memory.wfFrom, Bool.and_eq_true, decide_eq_true_eq] at hm ⊢
    exact ⟨⟨⟨h.trans hm.1.1.1, hm.1.1.2⟩, hm.1.2⟩, hm.2⟩

theorem Memory.wfFrom_cons {lo k : Nat} {b : Byte} {t : Memory} :
    Memory.wfFrom lo ((k, b) :: t) = true ↔
      lo ≤ k ∧ k < 4096 ∧ b ≠ resetByte k ∧ Memory.wfFrom (k + 1) t = true := by
  simp [Memory.wfFrom, and_assoc]

/-- Below its first address a canonical memory reads as unlisted. -/
theorem Memory.get_below {lo a : Nat} {m : Memory} (hm : Memory.wfFrom lo m = true) (h : a < lo) :
    m.get a = resetByte a := by
  induction m generalizing lo with
  | nil => rfl
  | cons c t ih =>
    obtain ⟨k, b⟩ := c
    rw [Memory.wfFrom_cons] at hm
    rw [Memory.get, if_neg (by omega)]
    exact ih hm.2.2.2 (by omega)

theorem Memory.get_set_other {m : Memory} {a a' : Nat} {b : Byte} (h : a' ≠ a) :
    (m.set a b).get a' = m.get a' := by
  induction m with
  | nil => by_cases hb : b = resetByte a <;> simp [Memory.set, Memory.get, hb, h.symm]
  | cons c t ih =>
    obtain ⟨k, c⟩ := c
    simp only [Memory.set]
    split
    · split
      · rfl
      · simp [Memory.get, h.symm]
    · split
      · subst k
        split <;> simp [Memory.get, h.symm]
      · simp [Memory.get, ih]

theorem Memory.get_set_same {lo a : Nat} {m : Memory} {b : Byte} (hm : Memory.wfFrom lo m = true) :
    (m.set a b).get a = b := by
  induction m generalizing lo with
  | nil => by_cases hb : b = resetByte a <;> simp [Memory.set, Memory.get, hb]
  | cons c t ih =>
    obtain ⟨k, c⟩ := c
    have hk := Memory.wfFrom_cons.mp hm
    simp only [Memory.set]
    split
    · split
      · next hb =>
        rw [Memory.get, if_neg (by omega), Memory.get_below hk.2.2.2 (by omega), hb]
      · simp [Memory.get]
    · split
      · subst k
        split
        · next hb => rw [Memory.get_below hk.2.2.2 (by omega), hb]
        · simp [Memory.get]
      · rw [Memory.get, if_neg (by omega)]
        exact ih hk.2.2.2

/-- What a byte reads as after a write. -/
theorem Memory.get_set {a a' : Nat} {m : Memory} {b : Byte} (hm : m.wf = true) :
    (m.set a b).get a' = if a' = a then b else m.get a' := by
  split
  · next h => subst h; exact Memory.get_set_same hm
  · next h => exact Memory.get_set_other h

theorem Memory.set_wfFrom {lo a : Nat} {m : Memory} {b : Byte} (hm : Memory.wfFrom lo m = true) (hlo : lo ≤ a)
    (ha : a < 4096) : Memory.wfFrom lo (m.set a b) = true := by
  induction m generalizing lo with
  | nil =>
    simp only [Memory.set]
    split
    · rfl
    · next hb => exact Memory.wfFrom_cons.mpr ⟨hlo, ha, hb, rfl⟩
  | cons c t ih =>
    obtain ⟨k, c⟩ := c
    have hk := Memory.wfFrom_cons.mp hm
    simp only [Memory.set]
    split
    · split
      · exact hm
      · next hb =>
        exact Memory.wfFrom_cons.mpr ⟨hlo, ha, hb, Memory.wfFrom_cons.mpr ⟨by omega, hk.2⟩⟩
    · split
      · subst k
        split
        · exact Memory.wfFrom_mono (by omega) hk.2.2.2
        · next hb => exact Memory.wfFrom_cons.mpr ⟨hlo, ha, hb, hk.2.2.2⟩
      · exact Memory.wfFrom_cons.mpr ⟨hk.1, hk.2.1, hk.2.2.1, ih hk.2.2.2 (by omega)⟩

theorem Memory.set_wf {a : Nat} {m : Memory} {b : Byte} (hm : m.wf = true) (ha : a < 4096) :
    (m.set a b).wf = true := Memory.set_wfFrom hm (Nat.zero_le a) ha

theorem Memory.setCells_wf {m : Memory} {cs : List (Nat × Byte)} (hm : m.wf = true) : (m.setCells cs).wf = true := by
  induction cs generalizing m with
  | nil => exact hm
  | cons c t ih =>
    rw [Memory.setCells]
    split
    · next h => exact ih (Memory.set_wf hm h)
    · exact ih hm

theorem Memory.fill_wf {m : Memory} {a : Nat} {bs : List Byte} (hm : m.wf = true) (h : a + bs.length ≤ 4096) :
    (m.fill a bs).wf = true := by
  induction bs generalizing m a with
  | nil => exact hm
  | cons b t ih =>
    rw [List.length_cons] at h
    exact ih (Memory.set_wf hm (by omega)) (by omega)

/-- What a byte reads as after bytes are placed. -/
theorem Memory.get_fill {m : Memory} {a a' : Nat} {bs : List Byte} (hm : m.wf = true) (h : a + bs.length ≤ 4096) :
    (m.fill a bs).get a' = if a ≤ a' ∧ a' < a + bs.length then bs.getD (a' - a) 0 else m.get a' := by
  induction bs generalizing m a with
  | nil => rw [Memory.fill, if_neg (by simp)]
  | cons b t ih =>
    rw [List.length_cons] at h
    rw [Memory.fill, ih (Memory.set_wf hm (by omega)) (by omega), Memory.get_set hm, List.length_cons]
    rcases Nat.lt_trichotomy a' a with h' | h' | h'
    · rw [if_neg (by omega), if_neg (by omega), if_neg (by omega)]
    · subst h'; rw [if_neg (by omega), if_pos rfl, if_pos (by omega)]; simp
    · by_cases hl : a' < a + (t.length + 1)
      · rw [if_pos (by omega), if_pos (by omega), show a' - a = (a' - (a + 1)) + 1 by omega]; simp
      · rw [if_neg (by omega), if_neg (by omega), if_neg (by omega)]

/-- Everything `resolve` can answer, at the default of `MEM_OOB_WRAPS`. -/
theorem resolve_eq (a : Nat) : resolve a = if a < 4096 then .ok a else .error a := by
  simp [resolve, Config.memOobWraps]

/-- Everything `MemRead` can answer. -/
theorem Memory.read_eq (m : Memory) (a : Nat) : m.read a = if a < 4096 then .ok (m.get a) else .error a := by
  rw [Memory.read, resolve_eq]
  by_cases h : a < 4096 <;> simp [h]

/-- Everything `MemWrite` can answer. -/
theorem Memory.write_eq (m : Memory) (a : Nat) (b : Byte) :
    m.write a b = if a < 4096 then .ok (m.set a b) else .error a := by
  rw [Memory.write, resolve_eq]
  by_cases h : a < 4096 <;> simp [h]

/-- The bytes read, where every address exists. -/
theorem Memory.readBytes_ok {m : Memory} {a n : Nat} (h : a + n ≤ 4096) :
    m.readBytes a n = .ok ((List.range' a n).map m.get) := by
  induction n generalizing a with
  | zero => rfl
  | succ n ih =>
    rw [Memory.readBytes, Memory.read_eq, if_pos (by omega), ih (by omega)]
    simp [List.range'_succ]

/-- The first offending address, where not every address exists. -/
theorem Memory.readBytes_error {m : Memory} {a n : Nat} (h : 4096 < a + n) (hn : 0 < n) :
    m.readBytes a n = .error (max a 4096) := by
  induction n generalizing a with
  | zero => omega
  | succ n ih =>
    rw [Memory.readBytes, Memory.read_eq]
    by_cases ha : a < 4096
    · simp only [if_pos ha, ih (a := a + 1) (by omega) (by omega), Except.error.injEq]
      omega
    · simp only [if_neg ha, Except.error.injEq]
      omega

/-- Everything a multi-byte read can answer. -/
theorem Memory.readBytes_eq (m : Memory) (a n : Nat) :
    m.readBytes a n =
      if a + n ≤ 4096 ∨ n = 0 then .ok ((List.range' a n).map m.get) else .error (max a 4096) := by
  split
  · next h =>
    rcases h with h | rfl
    · exact Memory.readBytes_ok h
    · rfl
  · next h => exact Memory.readBytes_error (by omega) (by omega)

/-- The memory written, where every address exists. -/
theorem Memory.writeBytes_ok {m : Memory} {a : Nat} {bs : List Byte} (h : a + bs.length ≤ 4096) :
    m.writeBytes a bs = .ok (m.fill a bs) := by
  induction bs generalizing m a with
  | nil => rfl
  | cons b t ih =>
    rw [List.length_cons] at h
    rw [Memory.writeBytes, Memory.write_eq, if_pos (by omega)]
    exact ih (by omega)

/-- The first offending address, where not every address exists. -/
theorem Memory.writeBytes_error {m : Memory} {a : Nat} {bs : List Byte} (h : 4096 < a + bs.length)
    (hb : bs ≠ []) : m.writeBytes a bs = .error (max a 4096) := by
  induction bs generalizing m a with
  | nil => exact absurd rfl hb
  | cons b t ih =>
    rw [List.length_cons] at h
    rw [Memory.writeBytes, Memory.write_eq]
    by_cases ha : a < 4096
    · have ht : t ≠ [] := by rintro rfl; simp only [List.length_nil] at h; omega
      simp only [if_pos ha, ih (a := a + 1) (by omega) ht, Except.error.injEq]
      omega
    · simp only [if_neg ha, Except.error.injEq]
      omega

/-- Everything a multi-byte write can answer. -/
theorem Memory.writeBytes_eq (m : Memory) (a : Nat) (bs : List Byte) :
    m.writeBytes a bs =
      if a + bs.length ≤ 4096 ∨ bs = [] then .ok (m.fill a bs) else .error (max a 4096) := by
  split
  · next h =>
    rcases h with h | rfl
    · exact Memory.writeBytes_ok h
    · rfl
  · next h =>
    rw [not_or] at h
    exact Memory.writeBytes_error (by omega) h.2

/-- A byte outside the bytes placed reads as before, in every memory. -/
theorem Memory.get_fill_other {m : Memory} {a a' : Nat} {bs : List Byte} (h : a' < a ∨ a + bs.length ≤ a') :
    (m.fill a bs).get a' = m.get a' := by
  induction bs generalizing m a with
  | nil => rfl
  | cons b t ih =>
    rw [List.length_cons] at h
    rw [Memory.fill, ih (by omega), Memory.get_set_other (by omega)]

end Sys2Proof.Machine
end

