-- ==== Sys2Proof/Laws/State.lean ====
section
/-!
SUPPORT. One lemma per field per update of the state, each true by rfl, so that no proof unfolds a record update.
-/

namespace Sys2Proof.Machine

/-! ## setReg -/

@[simp] theorem State.setReg_mem (s : State) (x : Nib) (b : Byte) : (s.setReg x b).mem = s.mem := rfl
@[simp] theorem State.setReg_v (s : State) (x : Nib) (b : Byte) : (s.setReg x b).v = s.v.set x.toNat b x.isLt := rfl
@[simp] theorem State.setReg_i (s : State) (x : Nib) (b : Byte) : (s.setReg x b).i = s.i := rfl
@[simp] theorem State.setReg_pc (s : State) (x : Nib) (b : Byte) : (s.setReg x b).pc = s.pc := rfl
@[simp] theorem State.setReg_stack (s : State) (x : Nib) (b : Byte) : (s.setReg x b).stack = s.stack := rfl
@[simp] theorem State.setReg_sp (s : State) (x : Nib) (b : Byte) : (s.setReg x b).sp = s.sp := rfl
@[simp] theorem State.setReg_dt (s : State) (x : Nib) (b : Byte) : (s.setReg x b).dt = s.dt := rfl
@[simp] theorem State.setReg_st (s : State) (x : Nib) (b : Byte) : (s.setReg x b).st = s.st := rfl
@[simp] theorem State.setReg_disp (s : State) (x : Nib) (b : Byte) : (s.setReg x b).disp = s.disp := rfl
@[simp] theorem State.setReg_dirty (s : State) (x : Nib) (b : Byte) : (s.setReg x b).dirty = s.dirty := rfl
@[simp] theorem State.setReg_fault (s : State) (x : Nib) (b : Byte) : (s.setReg x b).fault = s.fault := rfl
@[simp] theorem State.setReg_keys (s : State) (x : Nib) (b : Byte) : (s.setReg x b).keys = s.keys := rfl
@[simp] theorem State.setReg_rnd (s : State) (x : Nib) (b : Byte) : (s.setReg x b).rnd = s.rnd := rfl
@[simp] theorem State.setReg_pending (s : State) (x : Nib) (b : Byte) : (s.setReg x b).pending = s.pending := rfl
@[simp] theorem State.setReg_outputs (s : State) (x : Nib) (b : Byte) : (s.setReg x b).outputs = s.outputs := rfl
@[simp] theorem State.setReg_draws (s : State) (x : Nib) (b : Byte) : (s.setReg x b).draws = s.draws := rfl

/-! ## setFlag -/

@[simp] theorem State.setFlag_mem (s : State) (f : Bool) : (s.setFlag f).mem = s.mem := rfl
@[simp] theorem State.setFlag_v (s : State) (f : Bool) : (s.setFlag f).v = s.v.set 15 (flagByte f) := rfl
@[simp] theorem State.setFlag_i (s : State) (f : Bool) : (s.setFlag f).i = s.i := rfl
@[simp] theorem State.setFlag_pc (s : State) (f : Bool) : (s.setFlag f).pc = s.pc := rfl
@[simp] theorem State.setFlag_stack (s : State) (f : Bool) : (s.setFlag f).stack = s.stack := rfl
@[simp] theorem State.setFlag_sp (s : State) (f : Bool) : (s.setFlag f).sp = s.sp := rfl
@[simp] theorem State.setFlag_dt (s : State) (f : Bool) : (s.setFlag f).dt = s.dt := rfl
@[simp] theorem State.setFlag_st (s : State) (f : Bool) : (s.setFlag f).st = s.st := rfl
@[simp] theorem State.setFlag_disp (s : State) (f : Bool) : (s.setFlag f).disp = s.disp := rfl
@[simp] theorem State.setFlag_dirty (s : State) (f : Bool) : (s.setFlag f).dirty = s.dirty := rfl
@[simp] theorem State.setFlag_fault (s : State) (f : Bool) : (s.setFlag f).fault = s.fault := rfl
@[simp] theorem State.setFlag_keys (s : State) (f : Bool) : (s.setFlag f).keys = s.keys := rfl
@[simp] theorem State.setFlag_rnd (s : State) (f : Bool) : (s.setFlag f).rnd = s.rnd := rfl
@[simp] theorem State.setFlag_pending (s : State) (f : Bool) : (s.setFlag f).pending = s.pending := rfl
@[simp] theorem State.setFlag_outputs (s : State) (f : Bool) : (s.setFlag f).outputs = s.outputs := rfl
@[simp] theorem State.setFlag_draws (s : State) (f : Bool) : (s.setFlag f).draws = s.draws := rfl

/-! ## setI -/

@[simp] theorem State.setI_mem (s : State) (w : Word) : (s.setI w).mem = s.mem := rfl
@[simp] theorem State.setI_v (s : State) (w : Word) : (s.setI w).v = s.v := rfl
@[simp] theorem State.setI_i (s : State) (w : Word) : (s.setI w).i = w := rfl
@[simp] theorem State.setI_pc (s : State) (w : Word) : (s.setI w).pc = s.pc := rfl
@[simp] theorem State.setI_stack (s : State) (w : Word) : (s.setI w).stack = s.stack := rfl
@[simp] theorem State.setI_sp (s : State) (w : Word) : (s.setI w).sp = s.sp := rfl
@[simp] theorem State.setI_dt (s : State) (w : Word) : (s.setI w).dt = s.dt := rfl
@[simp] theorem State.setI_st (s : State) (w : Word) : (s.setI w).st = s.st := rfl
@[simp] theorem State.setI_disp (s : State) (w : Word) : (s.setI w).disp = s.disp := rfl
@[simp] theorem State.setI_dirty (s : State) (w : Word) : (s.setI w).dirty = s.dirty := rfl
@[simp] theorem State.setI_fault (s : State) (w : Word) : (s.setI w).fault = s.fault := rfl
@[simp] theorem State.setI_keys (s : State) (w : Word) : (s.setI w).keys = s.keys := rfl
@[simp] theorem State.setI_rnd (s : State) (w : Word) : (s.setI w).rnd = s.rnd := rfl
@[simp] theorem State.setI_pending (s : State) (w : Word) : (s.setI w).pending = s.pending := rfl
@[simp] theorem State.setI_outputs (s : State) (w : Word) : (s.setI w).outputs = s.outputs := rfl
@[simp] theorem State.setI_draws (s : State) (w : Word) : (s.setI w).draws = s.draws := rfl

/-! ## setPc -/

@[simp] theorem State.setPc_mem (s : State) (w : Word) : (s.setPc w).mem = s.mem := rfl
@[simp] theorem State.setPc_v (s : State) (w : Word) : (s.setPc w).v = s.v := rfl
@[simp] theorem State.setPc_i (s : State) (w : Word) : (s.setPc w).i = s.i := rfl
@[simp] theorem State.setPc_pc (s : State) (w : Word) : (s.setPc w).pc = w := rfl
@[simp] theorem State.setPc_stack (s : State) (w : Word) : (s.setPc w).stack = s.stack := rfl
@[simp] theorem State.setPc_sp (s : State) (w : Word) : (s.setPc w).sp = s.sp := rfl
@[simp] theorem State.setPc_dt (s : State) (w : Word) : (s.setPc w).dt = s.dt := rfl
@[simp] theorem State.setPc_st (s : State) (w : Word) : (s.setPc w).st = s.st := rfl
@[simp] theorem State.setPc_disp (s : State) (w : Word) : (s.setPc w).disp = s.disp := rfl
@[simp] theorem State.setPc_dirty (s : State) (w : Word) : (s.setPc w).dirty = s.dirty := rfl
@[simp] theorem State.setPc_fault (s : State) (w : Word) : (s.setPc w).fault = s.fault := rfl
@[simp] theorem State.setPc_keys (s : State) (w : Word) : (s.setPc w).keys = s.keys := rfl
@[simp] theorem State.setPc_rnd (s : State) (w : Word) : (s.setPc w).rnd = s.rnd := rfl
@[simp] theorem State.setPc_pending (s : State) (w : Word) : (s.setPc w).pending = s.pending := rfl
@[simp] theorem State.setPc_outputs (s : State) (w : Word) : (s.setPc w).outputs = s.outputs := rfl
@[simp] theorem State.setPc_draws (s : State) (w : Word) : (s.setPc w).draws = s.draws := rfl

/-! ## advance -/

@[simp] theorem State.advance_mem (s : State) : (s.advance).mem = s.mem := rfl
@[simp] theorem State.advance_v (s : State) : (s.advance).v = s.v := rfl
@[simp] theorem State.advance_i (s : State) : (s.advance).i = s.i := rfl
@[simp] theorem State.advance_pc (s : State) : (s.advance).pc = s.pc + 2 := rfl
@[simp] theorem State.advance_stack (s : State) : (s.advance).stack = s.stack := rfl
@[simp] theorem State.advance_sp (s : State) : (s.advance).sp = s.sp := rfl
@[simp] theorem State.advance_dt (s : State) : (s.advance).dt = s.dt := rfl
@[simp] theorem State.advance_st (s : State) : (s.advance).st = s.st := rfl
@[simp] theorem State.advance_disp (s : State) : (s.advance).disp = s.disp := rfl
@[simp] theorem State.advance_dirty (s : State) : (s.advance).dirty = s.dirty := rfl
@[simp] theorem State.advance_fault (s : State) : (s.advance).fault = s.fault := rfl
@[simp] theorem State.advance_keys (s : State) : (s.advance).keys = s.keys := rfl
@[simp] theorem State.advance_rnd (s : State) : (s.advance).rnd = s.rnd := rfl
@[simp] theorem State.advance_pending (s : State) : (s.advance).pending = s.pending := rfl
@[simp] theorem State.advance_outputs (s : State) : (s.advance).outputs = s.outputs := rfl
@[simp] theorem State.advance_draws (s : State) : (s.advance).draws = s.draws := rfl

/-! ## setMem -/

@[simp] theorem State.setMem_mem (s : State) (m : Memory) : (s.setMem m).mem = m := rfl
@[simp] theorem State.setMem_v (s : State) (m : Memory) : (s.setMem m).v = s.v := rfl
@[simp] theorem State.setMem_i (s : State) (m : Memory) : (s.setMem m).i = s.i := rfl
@[simp] theorem State.setMem_pc (s : State) (m : Memory) : (s.setMem m).pc = s.pc := rfl
@[simp] theorem State.setMem_stack (s : State) (m : Memory) : (s.setMem m).stack = s.stack := rfl
@[simp] theorem State.setMem_sp (s : State) (m : Memory) : (s.setMem m).sp = s.sp := rfl
@[simp] theorem State.setMem_dt (s : State) (m : Memory) : (s.setMem m).dt = s.dt := rfl
@[simp] theorem State.setMem_st (s : State) (m : Memory) : (s.setMem m).st = s.st := rfl
@[simp] theorem State.setMem_disp (s : State) (m : Memory) : (s.setMem m).disp = s.disp := rfl
@[simp] theorem State.setMem_dirty (s : State) (m : Memory) : (s.setMem m).dirty = s.dirty := rfl
@[simp] theorem State.setMem_fault (s : State) (m : Memory) : (s.setMem m).fault = s.fault := rfl
@[simp] theorem State.setMem_keys (s : State) (m : Memory) : (s.setMem m).keys = s.keys := rfl
@[simp] theorem State.setMem_rnd (s : State) (m : Memory) : (s.setMem m).rnd = s.rnd := rfl
@[simp] theorem State.setMem_pending (s : State) (m : Memory) : (s.setMem m).pending = s.pending := rfl
@[simp] theorem State.setMem_outputs (s : State) (m : Memory) : (s.setMem m).outputs = s.outputs := rfl
@[simp] theorem State.setMem_draws (s : State) (m : Memory) : (s.setMem m).draws = s.draws := rfl

/-! ## wreck -/

@[simp] theorem State.wreck_mem (s : State) : (s.wreck).mem = s.mem.setCells (Config.wreckAt s.draws).writes := rfl
@[simp] theorem State.wreck_v (s : State) : (s.wreck).v = (Config.wreckAt s.draws).v := rfl
@[simp] theorem State.wreck_i (s : State) : (s.wreck).i = (Config.wreckAt s.draws).i := rfl
@[simp] theorem State.wreck_pc (s : State) : (s.wreck).pc = (Config.wreckAt s.draws).pc := rfl
@[simp] theorem State.wreck_stack (s : State) : (s.wreck).stack = (Config.wreckAt s.draws).stack := rfl
@[simp] theorem State.wreck_sp (s : State) : (s.wreck).sp = (Config.wreckAt s.draws).sp := rfl
@[simp] theorem State.wreck_dt (s : State) : (s.wreck).dt = (Config.wreckAt s.draws).dt := rfl
@[simp] theorem State.wreck_st (s : State) : (s.wreck).st = (Config.wreckAt s.draws).st := rfl
@[simp] theorem State.wreck_disp (s : State) : (s.wreck).disp = (Config.wreckAt s.draws).disp := rfl
@[simp] theorem State.wreck_dirty (s : State) : (s.wreck).dirty = (Config.wreckAt s.draws).dirty := rfl
@[simp] theorem State.wreck_fault (s : State) : (s.wreck).fault = s.fault := rfl
@[simp] theorem State.wreck_keys (s : State) : (s.wreck).keys = s.keys := rfl
@[simp] theorem State.wreck_rnd (s : State) : (s.wreck).rnd = s.rnd := rfl
@[simp] theorem State.wreck_pending (s : State) : (s.wreck).pending = s.pending := rfl
@[simp] theorem State.wreck_outputs (s : State) : (s.wreck).outputs = s.outputs := rfl
@[simp] theorem State.wreck_draws (s : State) : (s.wreck).draws = s.draws := rfl

/-! ## consume -/

@[simp] theorem State.consume_mem (s : State) : (s.consume).mem = s.mem := rfl
@[simp] theorem State.consume_v (s : State) : (s.consume).v = s.v := rfl
@[simp] theorem State.consume_i (s : State) : (s.consume).i = s.i := rfl
@[simp] theorem State.consume_pc (s : State) : (s.consume).pc = s.pc := rfl
@[simp] theorem State.consume_stack (s : State) : (s.consume).stack = s.stack := rfl
@[simp] theorem State.consume_sp (s : State) : (s.consume).sp = s.sp := rfl
@[simp] theorem State.consume_dt (s : State) : (s.consume).dt = s.dt := rfl
@[simp] theorem State.consume_st (s : State) : (s.consume).st = s.st := rfl
@[simp] theorem State.consume_disp (s : State) : (s.consume).disp = s.disp := rfl
@[simp] theorem State.consume_dirty (s : State) : (s.consume).dirty = s.dirty := rfl
@[simp] theorem State.consume_fault (s : State) : (s.consume).fault = s.fault := rfl
@[simp] theorem State.consume_keys (s : State) : (s.consume).keys = s.keys := rfl
@[simp] theorem State.consume_rnd (s : State) : (s.consume).rnd = s.rnd := rfl
@[simp] theorem State.consume_pending (s : State) : (s.consume).pending = s.pending.tail := rfl
@[simp] theorem State.consume_outputs (s : State) : (s.consume).outputs = .quiet := rfl
@[simp] theorem State.consume_draws (s : State) : (s.consume).draws = s.draws + 1 := rfl

/-! ## sample -/

@[simp] theorem State.sample_mem (s : State) (k : BitVec 16) (r : Byte) : (s.sample k r).mem = s.mem := rfl
@[simp] theorem State.sample_v (s : State) (k : BitVec 16) (r : Byte) : (s.sample k r).v = s.v := rfl
@[simp] theorem State.sample_i (s : State) (k : BitVec 16) (r : Byte) : (s.sample k r).i = s.i := rfl
@[simp] theorem State.sample_pc (s : State) (k : BitVec 16) (r : Byte) : (s.sample k r).pc = s.pc := rfl
@[simp] theorem State.sample_stack (s : State) (k : BitVec 16) (r : Byte) : (s.sample k r).stack = s.stack := rfl
@[simp] theorem State.sample_sp (s : State) (k : BitVec 16) (r : Byte) : (s.sample k r).sp = s.sp := rfl
@[simp] theorem State.sample_dt (s : State) (k : BitVec 16) (r : Byte) : (s.sample k r).dt = s.dt := rfl
@[simp] theorem State.sample_st (s : State) (k : BitVec 16) (r : Byte) : (s.sample k r).st = s.st := rfl
@[simp] theorem State.sample_disp (s : State) (k : BitVec 16) (r : Byte) : (s.sample k r).disp = s.disp := rfl
@[simp] theorem State.sample_dirty (s : State) (k : BitVec 16) (r : Byte) : (s.sample k r).dirty = s.dirty := rfl
@[simp] theorem State.sample_fault (s : State) (k : BitVec 16) (r : Byte) : (s.sample k r).fault = s.fault := rfl
@[simp] theorem State.sample_keys (s : State) (k : BitVec 16) (r : Byte) : (s.sample k r).keys = k := rfl
@[simp] theorem State.sample_rnd (s : State) (k : BitVec 16) (r : Byte) : (s.sample k r).rnd = r := rfl
@[simp] theorem State.sample_pending (s : State) (k : BitVec 16) (r : Byte) : (s.sample k r).pending = s.pending := rfl
@[simp] theorem State.sample_outputs (s : State) (k : BitVec 16) (r : Byte) : (s.sample k r).outputs = s.outputs := rfl
@[simp] theorem State.sample_draws (s : State) (k : BitVec 16) (r : Byte) : (s.sample k r).draws = s.draws := rfl

/-! ## skipIf -/

@[simp] theorem State.skipIf_mem (s : State) (c : Bool) : (s.skipIf c).mem = s.mem := by cases c <;> rfl
@[simp] theorem State.skipIf_v (s : State) (c : Bool) : (s.skipIf c).v = s.v := by cases c <;> rfl
@[simp] theorem State.skipIf_i (s : State) (c : Bool) : (s.skipIf c).i = s.i := by cases c <;> rfl
@[simp] theorem State.skipIf_pc (s : State) (c : Bool) : (s.skipIf c).pc = if c then s.pc + 2 else s.pc := by
  cases c <;> rfl
@[simp] theorem State.skipIf_stack (s : State) (c : Bool) : (s.skipIf c).stack = s.stack := by cases c <;> rfl
@[simp] theorem State.skipIf_sp (s : State) (c : Bool) : (s.skipIf c).sp = s.sp := by cases c <;> rfl
@[simp] theorem State.skipIf_dt (s : State) (c : Bool) : (s.skipIf c).dt = s.dt := by cases c <;> rfl
@[simp] theorem State.skipIf_st (s : State) (c : Bool) : (s.skipIf c).st = s.st := by cases c <;> rfl
@[simp] theorem State.skipIf_disp (s : State) (c : Bool) : (s.skipIf c).disp = s.disp := by cases c <;> rfl
@[simp] theorem State.skipIf_dirty (s : State) (c : Bool) : (s.skipIf c).dirty = s.dirty := by cases c <;> rfl
@[simp] theorem State.skipIf_fault (s : State) (c : Bool) : (s.skipIf c).fault = s.fault := by cases c <;> rfl
@[simp] theorem State.skipIf_keys (s : State) (c : Bool) : (s.skipIf c).keys = s.keys := by cases c <;> rfl
@[simp] theorem State.skipIf_rnd (s : State) (c : Bool) : (s.skipIf c).rnd = s.rnd := by cases c <;> rfl
@[simp] theorem State.skipIf_pending (s : State) (c : Bool) : (s.skipIf c).pending = s.pending := by cases c <;> rfl
@[simp] theorem State.skipIf_outputs (s : State) (c : Bool) : (s.skipIf c).outputs = s.outputs := by cases c <;> rfl
@[simp] theorem State.skipIf_draws (s : State) (c : Bool) : (s.skipIf c).draws = s.draws := by cases c <;> rfl

end Sys2Proof.Machine
end

