-- ==== Sys2Proof/Laws/Ops.lean ====
section
/-!
SUPPORT. For each shared operation, what it can answer, said once.
-/

namespace Sys2Proof.Machine

/-! ## Registers -/

/-- A flag's byte is 1 or 0 (R22). -/
theorem flagByte_toNat (f : Bool) : (flagByte f).toNat = if f then 1 else 0 := by cases f <;> rfl

@[simp] theorem State.reg_setReg_same (s : State) (x : Nib) (b : Byte) : (s.setReg x b).reg x = b := by
  simp [State.reg]

theorem State.reg_setReg_other {s : State} {x r : Nib} {b : Byte} (h : r ≠ x) : (s.setReg x b).reg r = s.reg r := by
  have : x.toNat ≠ r.toNat := fun h' => h (BitVec.eq_of_toNat_eq h'.symm)
  simp [State.reg, this]

/-- What a register reads as after a register is written (R9). -/
theorem State.reg_setReg (s : State) (x r : Nib) (b : Byte) :
    (s.setReg x b).reg r = if r = x then b else s.reg r := by
  split
  · next h => subst h; exact State.reg_setReg_same s r b
  · next h => exact State.reg_setReg_other h

/-- What a register reads as after the result is written and the flag last (R140). -/
theorem State.reg_setFlag (s : State) (r : Nib) (f : Bool) :
    (s.setFlag f).reg r = if r = 0xF then flagByte f else s.reg r := State.reg_setReg s 0xF r _

/-- `reg` reads the register file only. -/
theorem State.reg_congr {s t : State} (h : t.v = s.v) (r : Nib) : t.reg r = s.reg r := by
  simp only [State.reg, h]

/-- Ascending loads (R206): register k + j gets byte j, every other register is kept. -/
theorem State.loadRegsFrom_v {s : State} {k j : Nat} {bs : List Byte} (hj : j < 16) :
    (s.loadRegsFrom k bs).v[j] = if k ≤ j then bs.getD (j - k) s.v[j] else s.v[j] := by
  induction bs generalizing s k with
  | nil => simp [State.loadRegsFrom]
  | cons b t ih =>
    rw [State.loadRegsFrom, ih]
    simp only [Vector.getElem_setIfInBounds]
    rcases Nat.lt_trichotomy k j with h | h | h
    · rw [if_pos (show k + 1 ≤ j by omega), if_pos (show k ≤ j by omega), if_neg (show ¬ k = j by omega),
        show j - k = (j - (k + 1)) + 1 by omega, List.getD_cons_succ]
    · subst h; simp
    · rw [if_neg (show ¬ k + 1 ≤ j by omega), if_neg (show ¬ k ≤ j by omega), if_neg (show ¬ k = j by omega)]

/-- Ascending loads write nothing but the register file. -/
theorem State.loadRegsFrom_frame (s : State) (k : Nat) (bs : List Byte) :
    { s.loadRegsFrom k bs with v := s.v } = s := by
  induction bs generalizing s k with
  | nil => rfl
  | cons b t ih =>
    rw [State.loadRegsFrom]
    have h := ih { s with v := s.v.setIfInBounds k b } (k + 1)
    generalize State.loadRegsFrom _ _ _ = t' at h
    exact congrArg (fun u : State => { u with v := s.v }) h

/-! ## The call stack -/

/-- Everything `Push` can answer (R25). -/
theorem State.push_cases (s : State) (w : Word) :
    (∃ h : s.sp.val < 16,
      s.push w = some { s with stack := s.stack.set s.sp.val w h, sp := ⟨s.sp.val + 1, Nat.succ_lt_succ h⟩ }) ∨
    (s.sp.val = 16 ∧ s.push w = none) := by
  by_cases h : s.sp.val < 16
  · exact .inl ⟨h, dif_pos h⟩
  · exact .inr ⟨by omega, dif_neg h⟩

/-- Everything `Pop` can answer (R25). -/
theorem State.pop_cases (s : State) :
    (s.sp = 0 ∧ s.pop = none) ∨
    ∃ (n : Nat) (h : n < 16), s.sp.val = n + 1 ∧
      s.pop = some (s.stack[n], { s with sp := ⟨n, Nat.lt_succ_of_lt h⟩ }) := by
  rcases s with ⟨mem, v, i, pc, stack, ⟨n, hn⟩, dt, st, disp, dirty, fault, keys, rnd, pending, outputs, draws⟩
  cases n with
  | zero => exact .inl ⟨rfl, rfl⟩
  | succ n => exact .inr ⟨n, by omega, rfl, rfl⟩

/-- The entries in use after a push: one more, the newest last (R25). -/
theorem take_stack_push (st : Vector Word 16) {n : Nat} (w : Word) (h : n < 16) :
    (st.set n w h).toList.take (n + 1) = st.toList.take n ++ [w] := by
  rw [List.take_add_one, Vector.toList_set, List.take_set_of_le (Nat.le_refl n)]
  simp [h]

/-- The entries in use before a pop: those left, and the one popped last (R25). -/
theorem take_stack_pop (st : Vector Word 16) {n : Nat} (h : n < 16) :
    st.toList.take (n + 1) = st.toList.take n ++ [st[n]] := by
  simp [List.take_add_one, h]

/-! ## Fatal conditions -/

/-- Taking a fatal condition always gives a next state, and all that is known of it is FAULT, the canonical form of
memory and the model's own fields (R225, R228). -/
theorem raise_spec {kind : FaultKind} {op addr : Word} {s t : State} (h : raise kind op addr s = .next t) :
    t.fault = some ⟨kind, op, addr⟩ ∧ (s.mem.wf = true → t.mem.wf = true) ∧ t.keys = s.keys ∧ t.rnd = s.rnd ∧
      t.pending = s.pending ∧ t.outputs = s.outputs ∧ t.draws = s.draws := by
  cases h
  exact ⟨rfl, Memory.setCells_wf, rfl, rfl, rfl, rfl, rfl⟩

/-- Everything an instruction fetch can answer (R101). -/
theorem fetch_eq (s : State) :
    fetch s =
      if s.pc.toNat ≤ 0xFFE then .ok (wordOfBytes (s.mem.get s.pc.toNat) (s.mem.get (s.pc.toNat + 1)))
      else .error (max s.pc.toNat 4096) := by
  simp only [fetch, Memory.read_eq]
  rcases Nat.lt_trichotomy s.pc.toNat 0xFFF with h | h | h
  · simp [show s.pc.toNat < 4096 by omega, show s.pc.toNat + 1 < 4096 by omega, show s.pc.toNat ≤ 4094 by omega]
  · simp [h]
  · simp [show ¬ s.pc.toNat < 4096 by omega, show ¬ s.pc.toNat ≤ 4094 by omega,
      show max s.pc.toNat 4096 = s.pc.toNat by omega]

/-- Everything a Tick can do (R100 to R104, R226, R227). -/
theorem tick_cases (run : Instr → State → Result) (s : State) :
    (s.fault ≠ none ∧ tick run s = .next s) ∨
    (s.fault = none ∧ 0xFFE < s.pc.toNat ∧
      tick run s = raise (.addressOutOfRange (max s.pc.toNat 4096)) 0 s.pc s) ∨
    (s.fault = none ∧ s.pc.toNat ≤ 0xFFE ∧ ∃ op,
      op = wordOfBytes (s.mem.get s.pc.toNat) (s.mem.get (s.pc.toNat + 1)) ∧
      ((decodeWord op = none ∧ tick run s = raise .illegalOpcode op s.pc s.advance) ∨
        ∃ i, decodeWord op = some i ∧ tick run s = run i s.advance)) := by
  cases hf : s.fault with
  | some r => exact .inl ⟨by simp, by simp [tick, hf]⟩
  | none =>
    by_cases hp : s.pc.toNat ≤ 0xFFE
    · refine .inr (.inr ⟨rfl, hp, _, rfl, ?_⟩)
      cases hd : decodeWord (wordOfBytes (s.mem.get s.pc.toNat) (s.mem.get (s.pc.toNat + 1))) with
      | none => exact .inl ⟨rfl, by simp [tick, hf, fetch_eq, hp, hd]⟩
      | some i => exact .inr ⟨i, rfl, by simp [tick, hf, fetch_eq, hp, hd]⟩
    · exact .inr (.inl ⟨rfl, by omega, by simp [tick, hf, fetch_eq, hp]⟩)

/-- `max` with the first address that does not exist is the first offending address (R56). -/
theorem firstOffending_eq (a : Nat) : firstOffending a = max a 4096 := by
  unfold firstOffending
  split <;> omega

/-- A handler's fatal condition records the word of its instruction and pc0 (R220, R225). -/
theorem raiseIn_raises (kind : FaultKind) (i : Instr) (s : State) :
    Raises (raiseIn kind i s) kind (encode i) (s.pc - 2) := ⟨_, rfl, rfl⟩

/-- An outcome that leaves the core not halted is no taking of a fatal condition. -/
theorem not_safe_of_raiseIn {kind : FaultKind} {i : Instr} {s t : State} (h : raiseIn kind i s = .next t) :
    ¬ t.Safe := by
  cases h
  exact fun h => by cases h

/-! ## Stores -/

/-- Everything a store at I can do (R56, R203, R205). -/
theorem State.storeAtI_cases (s : State) (i : Instr) {bs : List Byte} (hb : bs ≠ []) :
    (s.i.toNat + bs.length ≤ 4096 ∧ s.storeAtI i bs = .next (s.setMem (s.mem.fill s.i.toNat bs))) ∨
    (4096 < s.i.toNat + bs.length ∧ s.storeAtI i bs = raiseIn (.addressOutOfRange (max s.i.toNat 4096)) i s) := by
  by_cases h : s.i.toNat + bs.length ≤ 4096
  · exact .inl ⟨h, by simp [State.storeAtI, State.ea, Memory.writeBytes_eq, h]⟩
  · exact .inr ⟨by omega, by simp [State.storeAtI, State.ea, Memory.writeBytes_eq, h, hb]⟩

theorem bcdDigits_length (v : Byte) : (bcdDigits v).length = 3 := rfl

theorem State.regsUpTo_length (s : State) (x : Nib) : (s.regsUpTo x).length = x.toNat + 1 := by
  have := x.isLt
  simp only [State.regsUpTo, List.length_take, Vector.length_toList]
  omega

theorem State.regsUpTo_getD {s : State} {x k : Nib} (h : k.toNat ≤ x.toNat) : (s.regsUpTo x).getD k.toNat 0 = s.reg k := by
  have := k.isLt
  have hk : k.toNat < (s.regsUpTo x).length := by rw [State.regsUpTo_length]; omega
  rw [List.getD_eq_getElem _ _ hk]
  simp [State.regsUpTo, State.reg]

/-! ## Construction -/

/-- The memory Construction leaves is canonical (R58). -/
theorem constructedMemory_wf (font : Vector Byte 80) {image : List Byte} (h : image.length ≤ 3584) :
    (constructedMemory font image).wf = true := by
  have hf : font.toList.length = 80 := Vector.length_toList
  exact Memory.fill_wf (Memory.fill_wf rfl (by rw [hf]; decide)) (show 0x200 + image.length ≤ 4096 by omega)

/-- What each byte of a constructed memory reads as (R58). -/
theorem constructedMemory_get (font : Vector Byte 80) {image : List Byte} (a : Nat) (h : image.length ≤ 3584) :
    (constructedMemory font image).get a =
      if 0x050 ≤ a ∧ a < 0x0A0 then font.toList.getD (a - 0x050) 0
      else if 0x200 ≤ a ∧ a < 0x200 + image.length then image.getD (a - 0x200) 0
      else 0 := by
  have hf : font.toList.length = 80 := Vector.length_toList
  rw [constructedMemory, Memory.get_fill (Memory.fill_wf rfl (by rw [hf]; decide))
    (show 0x200 + image.length ≤ 4096 by omega), Memory.get_fill rfl (by rw [hf]; decide), hf]
  simp only [Memory.get, resetByte, Config.fontBase, Config.fontLen]
  split_ifs <;> first | rfl | omega

/-! ## Keys -/

/-- No key is found exactly where none is pressed (R192). -/
theorem lowestKey_none (keys : BitVec 16) : lowestKey keys = none ↔ keys = 0 := by
  simp only [lowestKey, Option.map_eq_none_iff, List.find?_eq_none, List.mem_range]
  constructor
  · intro h
    apply BitVec.eq_of_getLsbD_eq
    intro k hk
    simpa using h k hk
  · rintro rfl k _
    simp

/-- The key found is pressed and no lower one is (R192). -/
theorem lowestKey_some {keys : BitVec 16} {b : Byte} (h : lowestKey keys = some b) :
    b.toNat < 16 ∧ keys.getLsbD b.toNat = true ∧ ∀ k < b.toNat, keys.getLsbD k = false := by
  simp only [lowestKey, Option.map_eq_some_iff, List.find?_range_eq_some] at h
  obtain ⟨k, ⟨h1, h2, h3⟩, rfl⟩ := h
  have hk : (BitVec.ofNat 8 k).toNat = k := by
    have := List.mem_range.mp h2
    simp only [BitVec.toNat_ofNat]
    omega
  rw [hk]
  exact ⟨List.mem_range.mp h2, h1, fun j hj => by simpa using h3 j hj⟩

/-! ## The step -/

/-- Everything a step can do: the strobe is used up and its agent acts (R264). -/
theorem step_eq (s : State) : step s = runStrobe exec s.nextStrobe s.consume := rfl

end Sys2Proof.Machine
end

