-- ==== Sys2Proof/Laws/Draw.lean ====
section
/-!
SUPPORT. What drawing does to the display, said once (47_display.md R180): a set of cells is flipped, the collision
flag says whether one of them was lit, `changed` whether there is one.
-/

namespace Sys2Proof.Machine

/-- Going from canvas `c` to `c'` flips exactly the cells that `hit` marks. -/
structure Drawn (c c' : Canvas) (hit : Fin 32 → Fin 64 → Bool) : Prop where
  pixels : ∀ y x, pixel c'.disp y x = (pixel c.disp y x != hit y x)
  collision : c'.collision = true ↔ c.collision = true ∨ ∃ y x, hit y x = true ∧ pixel c.disp y x = true
  changed : c'.changed = true ↔ c.changed = true ∨ ∃ y x, hit y x = true

theorem pixel_flipPixel (d : Display) (y y' : Fin 32) (x x' : Fin 64) :
    pixel (flipPixel d y x) y' x' = (pixel d y' x' != (decide (y' = y) && decide (x' = x))) := by
  unfold pixel flipPixel
  by_cases hy : y' = y
  · subst hy
    by_cases hx : x' = x
    · subst hx; simp [pixel]
    · simp [hx, Fin.val_ne_of_ne (Ne.symm hx)]
  · simp [hy, Fin.val_ne_of_ne (Ne.symm hy)]

theorem Drawn.refl (c : Canvas) : Drawn c c fun _ _ => false := ⟨by simp, by simp, by simp⟩

theorem Drawn.congr {c c' : Canvas} {h h' : Fin 32 → Fin 64 → Bool} (d : Drawn c c' h) (e : ∀ y x, h y x = h' y x) :
    Drawn c c' h' := by
  have : h = h' := funext fun y => funext (e y)
  exact this ▸ d

/-- Drawing one set of cells, then another that has none of the first, draws both. -/
theorem Drawn.trans {c c₁ c₂ : Canvas} {h₁ h₂ : Fin 32 → Fin 64 → Bool} (d₁ : Drawn c c₁ h₁) (d₂ : Drawn c₁ c₂ h₂)
    (disjoint : ∀ y x, h₁ y x = true → h₂ y x = false) : Drawn c c₂ fun y x => h₁ y x || h₂ y x := by
  have kept : ∀ y x, h₂ y x = true → pixel c₁.disp y x = pixel c.disp y x := fun y x h => by
    have : h₁ y x = false := Bool.eq_false_iff.mpr fun h' => by simp [disjoint y x h'] at h
    simp [d₁.pixels, this]
  refine ⟨fun y x => ?_, ?_, ?_⟩
  · rw [d₂.pixels, d₁.pixels]
    have := disjoint y x
    revert this
    cases h₁ y x <;> cases h₂ y x <;> simp
  · rw [d₂.collision, d₁.collision, or_assoc]
    refine or_congr_right ⟨?_, ?_⟩
    · rintro (⟨y, x, h, p⟩ | ⟨y, x, h, p⟩)
      · exact ⟨y, x, by simp [h], p⟩
      · exact ⟨y, x, by simp [h], kept y x h ▸ p⟩
    · rintro ⟨y, x, h, p⟩
      rcases Bool.or_eq_true _ _ ▸ h with h | h
      · exact .inl ⟨y, x, h, p⟩
      · exact .inr ⟨y, x, h, (kept y x h).symm ▸ p⟩
  · rw [d₂.changed, d₁.changed, or_assoc]
    refine or_congr_right ⟨?_, ?_⟩
    · rintro (⟨y, x, h⟩ | ⟨y, x, h⟩) <;> exact ⟨y, x, by simp [h]⟩
    · rintro ⟨y, x, h⟩
      rcases Bool.or_eq_true _ _ ▸ h with h | h
      · exact .inl ⟨y, x, h⟩
      · exact .inr ⟨y, x, h⟩

/-- The column of cell `px` inside a sprite whose left edge is at `x0`, around the display. -/
def colOf (x0 : Nat) (px : Fin 64) : Nat := (px.val + 64 - x0 % 64) % 64

/-- The row of cell `py` inside a sprite whose top edge is at `y0`, around the display. -/
def rowOf (y0 : Nat) (py : Fin 32) : Nat := (py.val + 32 - y0 % 32) % 32

theorem eq_ofNat_iff_colOf {x0 col : Nat} {px : Fin 64} (h : col < 64) :
    px = Fin.ofNat 64 (x0 + col) ↔ colOf x0 px = col := by
  have := px.isLt
  simp only [Fin.ext_iff, Fin.ofNat, colOf]
  omega

theorem eq_ofNat_iff_rowOf {y0 row : Nat} {py : Fin 32} (h : row < 32) :
    py = Fin.ofNat 32 (y0 + row) ↔ rowOf y0 py = row := by
  have := py.isLt
  simp only [Fin.ext_iff, Fin.ofNat, rowOf]
  omega

/-- One bit of one row flips its own cell. -/
theorem drawBit_drawn (x0 y : Nat) (b : Byte) (c : Canvas) {col : Nat} (h : col < 64) :
    Drawn c (drawBit x0 y b c col) fun py px =>
      spriteBit b col && (decide (py = Fin.ofNat 32 y) && decide (colOf x0 px = col)) := by
  unfold drawBit
  split
  · next hb =>
    refine ⟨fun py px => ?_, ?_, ?_⟩
    · simp only [pixel_flipPixel, hb, eq_ofNat_iff_colOf h, Bool.true_and]
    · simp only [hb, Bool.true_and, Bool.or_eq_true, Bool.and_eq_true, decide_eq_true_eq]
      refine or_congr_right ⟨fun p => ⟨_, _, ⟨rfl, (eq_ofNat_iff_colOf h).mp rfl⟩, p⟩, ?_⟩
      rintro ⟨py, px, ⟨rfl, hx⟩, p⟩
      rw [← (eq_ofNat_iff_colOf h).mpr hx]
      exact p
    · simp only [hb, Bool.true_and, Bool.and_eq_true, decide_eq_true_eq, true_iff]
      exact .inr ⟨_, _, rfl, (eq_ofNat_iff_colOf h).mp rfl⟩
  · next hb => exact (Drawn.refl c).congr fun _ _ => by simp [hb]

/-- The first `n` bits of one row flip their own cells. -/
theorem drawBits_drawn (x0 y : Nat) (b : Byte) (c : Canvas) {n : Nat} (h : n ≤ 8) :
    Drawn c ((List.range n).foldl (drawBit x0 y b) c) fun py px =>
      decide (py = Fin.ofNat 32 y) && (decide (colOf x0 px < n) && spriteBit b (colOf x0 px)) := by
  induction n with
  | zero => exact (Drawn.refl c).congr fun _ _ => by simp
  | succ n ih =>
    rw [List.range_succ, List.foldl_append]
    refine ((ih (by omega)).trans (drawBit_drawn x0 y b _ (col := n) (by omega)) fun py px => ?_).congr fun py px => ?_
    · simp only [Bool.and_eq_true, decide_eq_true_eq, Bool.and_eq_false_imp, decide_eq_false_iff_not]
      intro ⟨_, h, _⟩ _ _
      omega
    · by_cases hc : colOf x0 px = n
      · simp [hc, Bool.and_comm]
      · have : colOf x0 px < n + 1 ↔ colOf x0 px < n := by omega
        simp [hc, this]

/-- Everything drawing a sprite of at most 32 rows does: the cell in sprite row r and sprite column c is flipped
exactly where r is a row of the sprite, c is below 8, and the row's bit c is 1. -/
theorem drawRows_drawn (x0 y : Nat) {bs : List Byte} (c : Canvas) (h : bs.length ≤ 32) :
    Drawn c (drawRows x0 y bs c) fun py px =>
      decide (rowOf y py < bs.length) && (decide (colOf x0 px < 8) && spriteBit (bs.getD (rowOf y py) 0) (colOf x0 px)) := by
  induction bs generalizing y c with
  | nil => exact (Drawn.refl c).congr fun _ _ => by simp
  | cons b t ih =>
    rw [List.length_cons] at h
    have hy : ∀ py : Fin 32, py = Fin.ofNat 32 y ↔ rowOf y py = 0 := fun py =>
      eq_ofNat_iff_rowOf (y0 := y) (row := 0) (by omega)
    have hr : ∀ py : Fin 32, rowOf (y + 1) py = if rowOf y py = 0 then 31 else rowOf y py - 1 := fun py => by
      have := py.isLt
      by_cases h0 : rowOf y py = 0
      · rw [if_pos h0]
        simp only [rowOf] at h0 ⊢
        omega
      · rw [if_neg h0]
        simp only [rowOf] at h0 ⊢
        omega
    rw [drawRows]
    refine ((drawBits_drawn x0 y b c (n := 8) (by omega)).trans (ih (y + 1) _ (by omega)) fun py px => ?_).congr
      fun py px => ?_
    · simp only [hy, hr, Bool.and_eq_true, decide_eq_true_eq, Bool.and_eq_false_imp]
      intro ⟨h0, _⟩ h1
      rw [if_pos h0] at h1
      omega
    · simp only [hy, hr, List.length_cons]
      by_cases h0 : rowOf y py = 0
      · rw [h0]
        simp [show ¬ 31 < t.length by omega]
      · obtain ⟨r, hr'⟩ := Nat.exists_eq_succ_of_ne_zero h0
        simp [hr']

end Sys2Proof.Machine
end

