-- ==== Sys2Proof/Laws/PerInstr.lean ====
section
/-!
SUPPORT. The family TableRow: the word of every instruction is selected by its row's mask and match (30_encoding.md
table of rule R74).
-/

namespace Sys2Proof.Laws.TableRow

/-- The word of `i` under its row's mask is its row's match. -/
def Statement (i : Instr) : Prop := encode i &&& i.row.mask = i.row.bits

theorem cls (x : Nib) : Statement (.cls x) := packXB_maskPNN _ _ _
theorem ret (x : Nib) : Statement (.ret x) := packXB_maskPNN _ _ _
theorem jp (nnn : Addr) : Statement (.jp nnn) := packA_maskP _ _
theorem call (nnn : Addr) : Statement (.call nnn) := packA_maskP _ _
theorem seImm (x : Nib) (nn : Byte) : Statement (.seImm x nn) := packXB_maskP _ _ _
theorem sneImm (x : Nib) (nn : Byte) : Statement (.sneImm x nn) := packXB_maskP _ _ _
theorem seReg (x y n : Nib) : Statement (.seReg x y n) := packXYN_maskP _ _ _ _
theorem ldImm (x : Nib) (nn : Byte) : Statement (.ldImm x nn) := packXB_maskP _ _ _
theorem addImm (x : Nib) (nn : Byte) : Statement (.addImm x nn) := packXB_maskP _ _ _
theorem ldReg (x y : Nib) : Statement (.ldReg x y) := packXYN_maskPN _ _ _ _
theorem orReg (x y : Nib) : Statement (.orReg x y) := packXYN_maskPN _ _ _ _
theorem andReg (x y : Nib) : Statement (.andReg x y) := packXYN_maskPN _ _ _ _
theorem xorReg (x y : Nib) : Statement (.xorReg x y) := packXYN_maskPN _ _ _ _
theorem addReg (x y : Nib) : Statement (.addReg x y) := packXYN_maskPN _ _ _ _
theorem subReg (x y : Nib) : Statement (.subReg x y) := packXYN_maskPN _ _ _ _
theorem shr (x y : Nib) : Statement (.shr x y) := packXYN_maskPN _ _ _ _
theorem subnReg (x y : Nib) : Statement (.subnReg x y) := packXYN_maskPN _ _ _ _
theorem shl (x y : Nib) : Statement (.shl x y) := packXYN_maskPN _ _ _ _
theorem sneReg (x y n : Nib) : Statement (.sneReg x y n) := packXYN_maskP _ _ _ _
theorem ldI (nnn : Addr) : Statement (.ldI nnn) := packA_maskP _ _
theorem jpV0 (nnn : Addr) : Statement (.jpV0 nnn) := packA_maskP _ _
theorem rnd (x : Nib) (nn : Byte) : Statement (.rnd x nn) := packXB_maskP _ _ _
theorem drw (x y n : Nib) : Statement (.drw x y n) := packXYN_maskP _ _ _ _
theorem skp (x : Nib) : Statement (.skp x) := packXB_maskPNN _ _ _
theorem sknp (x : Nib) : Statement (.sknp x) := packXB_maskPNN _ _ _
theorem ldVxDt (x : Nib) : Statement (.ldVxDt x) := packXB_maskPNN _ _ _
theorem ldVxK (x : Nib) : Statement (.ldVxK x) := packXB_maskPNN _ _ _
theorem ldDtVx (x : Nib) : Statement (.ldDtVx x) := packXB_maskPNN _ _ _
theorem ldStVx (x : Nib) : Statement (.ldStVx x) := packXB_maskPNN _ _ _
theorem addI (x : Nib) : Statement (.addI x) := packXB_maskPNN _ _ _
theorem ldF (x : Nib) : Statement (.ldF x) := packXB_maskPNN _ _ _
theorem ldB (x : Nib) : Statement (.ldB x) := packXB_maskPNN _ _ _
theorem storeRegs (x : Nib) : Statement (.storeRegs x) := packXB_maskPNN _ _ _
theorem loadRegs (x : Nib) : Statement (.loadRegs x) := packXB_maskPNN _ _ _

end Sys2Proof.Laws.TableRow
end

