-- ==== Sys2Proof/Tests/Slice0.lean ====
section
/-!
SUPPORT. The model's own tests: the smoke test of WellFormed, the words of 30_encoding.md written out bit by bit, one
or two vectors of 95_test_vectors.md per instruction (named in the docstring), and for each statement with hypotheses a
concrete state that meets them.
-/

namespace Sys2Proof.Tests

open Sys2Proof.Machine

set_option Elab.async false

/-- The state a step left, where it left one. -/
def stateOf : Result → Option State
  | .next t => some t
  | _ => none

/-- One Tick with the opcode `w` placed at PC. -/
def after (w : Nat) (s : State) : Option State := stateOf (step (s.withFetchWord 16 w))

/-- A state with some registers set. -/
def withV (s : State) (rs : List (Nib × Byte)) : State := rs.foldl (fun s r => s.setReg r.1 r.2) s

/-- A state with some bytes of memory set. -/
def withMem (s : State) (a : Nat) (bs : List Byte) : State := s.setMem (s.mem.fill a bs)

/-- Registers after one Tick, read in the order asked. -/
def regsAfter (w : Nat) (s : State) (rs : List Nib) : Option (List Byte) := (after w s).map fun t => rs.map t.reg

/-- PC after one Tick. -/
def pcAfter (w : Nat) (s : State) : Option Word := (after w s).map State.pc

/-- FAULT after one Tick. -/
def faultAfter (w : Nat) (s : State) : Option FaultRecord := (after w s).bind State.fault

/-- Bytes of memory after one Tick. -/
def bytesAfter (w : Nat) (s : State) (as : List Nat) : Option (List Byte) := (after w s).map fun t => as.map t.mem.get

/-- Cells of a display, asked as (column, row). -/
def cells (d : Display) (ps : List (Fin 64 × Fin 32)) : List Bool := ps.map fun p => pixel d p.2 p.1

/-- Some cells, and with them `dirty`, then VF after one Tick. -/
def drawnAfter (w : Nat) (s : State) (ps : List (Fin 64 × Fin 32)) : Option (List Bool × Byte) :=
  (after w s).map fun t => (cells t.disp ps ++ [t.dirty], t.reg 0xF)

/-- A fresh core with V1, V2 and VF set, as the ALU vectors have it. -/
def alu (v1 v2 vf : Byte) : State := withV State.reset [(1, v1), (2, v2), (0xF, vf)]

/-! ## WellFormed refuses what is not canonical -/

theorem test_wellFormed_refuses_cls : (Instr.cls 0xA).wellFormed = false := by decide
theorem test_wellFormed_refuses_ret : (Instr.ret 0x1).wellFormed = false := by decide
theorem test_wellFormed_refuses_seReg : (Instr.seReg 1 2 0x1).wellFormed = false := by decide
theorem test_wellFormed_refuses_sneReg : (Instr.sneReg 1 2 0xF).wellFormed = false := by decide
theorem test_wellFormed_accepts :
    [Instr.cls 0, .ret 0, .seReg 1 2 0, .sneReg 1 2 0, .shr 1 7, .shl 1 7].all Instr.wellFormed = true := by decide

/-! ## Decoding: one word per constructor, fields P, X, Y, N from the table of rule R71 -/

theorem test_decode_control :
    decodeWord 0b0000000011100000 = some (.cls 0) ∧ decodeWord 0b0000101011100000 = some (.cls 0xA) ∧
    decodeWord 0b0000000011101110 = some (.ret 0) ∧ decodeWord 0b0001101010111100 = some (.jp 0xABC) ∧
    decodeWord 0b0010001000010000 = some (.call 0x210) ∧ decodeWord 0b1011111111111111 = some (.jpV0 0xFFF) := by decide

theorem test_decode_skips :
    decodeWord 0b0011001100101010 = some (.seImm 3 0x2A) ∧ decodeWord 0b0100001100101010 = some (.sneImm 3 0x2A) ∧
    decodeWord 0b0101000100100001 = some (.seReg 1 2 1) ∧ decodeWord 0b1001000100101111 = some (.sneReg 1 2 0xF) ∧
    decodeWord 0b1110010010011110 = some (.skp 4) ∧ decodeWord 0b1110010010100001 = some (.sknp 4) := by decide

theorem test_decode_immediate :
    decodeWord 0b0110000000001010 = some (.ldImm 0 0x0A) ∧ decodeWord 0b0111001000000001 = some (.addImm 2 1) ∧
    decodeWord 0b1010001100000000 = some (.ldI 0x300) ∧ decodeWord 0b1100001100001111 = some (.rnd 3 0x0F) := by decide

theorem test_decode_alu :
    decodeWord 0b1000000100100000 = some (.ldReg 1 2) ∧ decodeWord 0b1000000100100001 = some (.orReg 1 2) ∧
    decodeWord 0b1000000100100010 = some (.andReg 1 2) ∧ decodeWord 0b1000000100100011 = some (.xorReg 1 2) ∧
    decodeWord 0b1000101010110100 = some (.addReg 0xA 0xB) ∧ decodeWord 0b1000000100100101 = some (.subReg 1 2) ∧
    decodeWord 0b1000000100100110 = some (.shr 1 2) ∧ decodeWord 0b1000000100100111 = some (.subnReg 1 2) ∧
    decodeWord 0b1000000100101110 = some (.shl 1 2) := by decide

theorem test_decode_display : decodeWord 0b1101010111110011 = some (.drw 5 0xF 3) := by decide

theorem test_decode_group_F :
    decodeWord 0b1111010100000111 = some (.ldVxDt 5) ∧ decodeWord 0b1111001100001010 = some (.ldVxK 3) ∧
    decodeWord 0b1111000000010101 = some (.ldDtVx 0) ∧ decodeWord 0b1111000100011000 = some (.ldStVx 1) ∧
    decodeWord 0b1111001000011110 = some (.addI 2) ∧ decodeWord 0b1111001000101001 = some (.ldF 2) ∧
    decodeWord 0b1111000000110011 = some (.ldB 0) ∧ decodeWord 0b1111001001010101 = some (.storeRegs 2) ∧
    decodeWord 0b1111001101100101 = some (.loadRegs 3) := by decide

/-- V-DEC-5 and V-KEY-11. -/
theorem test_decode_illegal :
    ([0x0000, 0x00E1, 0x0123, 0x8008, 0x812F, 0xE09F, 0xE000, 0xF000, 0xF01F, 0xF075, 0xF0FF, 0xE19F, 0xE1A0]
      : List Word).all (fun op => (decodeWord op).isNone) = true := by decide

/-- Big-endian, and what follows is left (R52, R82); too few bytes are no instruction (R70). -/
theorem test_decode_bytes :
    decode [0x12, 0x34, 0x56] = .ok (.jp 0x234, [0x56]) ∧ decode [0x12] = .error .truncated ∧
    decode [0x01, 0x23] = .error (.illegalOpcode 0x0123) ∧ decodeTableWord 16 0xD5F3 = some (.drw 5 0xF 3) := by decide

/-! ## Fetch and fatal conditions of the fetch -/

/-- V-FET-1. -/
theorem test_fetch_big_endian :
    fetch (withMem State.reset 0x200 [0x12, 0x34]) = .ok 0x1234 ∧ pcAfter 0x1234 State.reset = some 0x234 := by
  decide +kernel

/-- V-FET-2: no alignment. -/
theorem test_fetch_odd :
    (after 0x6077 (State.reset.setPc 0x201)).map (fun t => (t.reg 0, t.pc)) = some (0x77, 0x203) := by decide +kernel

/-- V-FET-4, and the second half of V-FET-3. -/
theorem test_fetch_out_of_range :
    faultAfter 0x6001 (State.reset.setPc 0xFFF) = some ⟨.addressOutOfRange 0x1000, 0x0000, 0x0FFF⟩ ∧
    faultAfter 0x6001 (State.reset.setPc 0x1000) = some ⟨.addressOutOfRange 0x1000, 0x0000, 0x1000⟩ := by decide +kernel

/-- V-FET-5, V-JMP-11, V-ALU-49. -/
theorem test_illegal_opcode :
    faultAfter 0x0000 State.reset = some ⟨.illegalOpcode, 0x0000, 0x200⟩ ∧
    faultAfter 0x0500 State.reset = some ⟨.illegalOpcode, 0x0500, 0x200⟩ ∧
    faultAfter 0x812F State.reset = some ⟨.illegalOpcode, 0x812F, 0x200⟩ := by decide +kernel

/-! ## Jump, call, return -/

/-- V-JMP-1. -/
theorem test_jp : pcAfter 0x1ABC State.reset = some 0x0ABC := by decide +kernel

/-- V-JMP-7 and V-JMP-6. -/
theorem test_call :
    (after 0x2300 { State.reset with sp := 15 }).map (fun t => (t.stack[15], t.sp, t.pc)) = some (0x0202, 16, 0x300) ∧
    faultAfter 0x2300 { State.reset with sp := 16 } = some ⟨.stackOverflow, 0x2300, 0x200⟩ := by decide +kernel

/-- V-JMP-4 and V-JMP-5. -/
theorem test_ret :
    (after 0x00EE { State.reset with pc := 0x212, sp := 1, stack := State.reset.stack.set 0 0x0206 }).map
      (fun t => (t.sp, t.pc)) = some (0, 0x0206) ∧
    faultAfter 0x00EE State.reset = some ⟨.stackUnderflow, 0x00EE, 0x200⟩ := by decide +kernel

/-- V-JMP-9 and V-JMP-10. -/
theorem test_jpV0 :
    pcAfter 0xB300 (withV State.reset [(0, 0xFF), (3, 0x11)]) = some 0x03FF ∧
    pcAfter 0xBFFF (withV State.reset [(0, 0xFF)]) = some 0x10FE := by decide +kernel

/-! ## Skips -/

/-- V-SKP-1, V-SKP-2. -/
theorem test_seImm :
    pcAfter 0x332A (withV State.reset [(3, 0x2A)]) = some 0x204 ∧
    pcAfter 0x332A (withV State.reset [(3, 0x2B)]) = some 0x202 := by decide +kernel

/-- V-SKP-3, V-SKP-4. -/
theorem test_sneImm :
    pcAfter 0x432A (withV State.reset [(3, 0x2A)]) = some 0x202 ∧ pcAfter 0x432A State.reset = some 0x204 := by
  decide +kernel

/-- V-SKP-5, V-SKP-6, with a non-canonical low nibble as well (V-DEC-4). -/
theorem test_seReg :
    pcAfter 0x5120 (alu 7 7 0) = some 0x204 ∧ pcAfter 0x5120 (alu 7 8 0) = some 0x202 ∧
    pcAfter 0x5121 (alu 7 7 0) = some 0x204 := by decide +kernel

/-- V-SKP-8, V-SKP-9. -/
theorem test_sneReg : pcAfter 0x9120 (alu 7 8 0) = some 0x204 ∧ pcAfter 0x912F (alu 7 7 0) = some 0x202 := by
  decide +kernel

/-- A fresh core with V4 set and a key set. -/
def keyed (v4 : Byte) (keys : BitVec 16) : State := { withV State.reset [(4, v4)] with keys := keys }

/-- V-KEY-1, V-KEY-2, V-KEY-5. -/
theorem test_skp :
    pcAfter 0xE49E (keyed 0x05 0x0420) = some 0x204 ∧ pcAfter 0xE49E (keyed 0x05 0) = some 0x202 ∧
    pcAfter 0xE49E (keyed 0x15 0xFFFF) = some 0x202 := by decide +kernel

/-- V-KEY-3, V-KEY-4, V-KEY-6. -/
theorem test_sknp :
    pcAfter 0xE4A1 (keyed 0x05 0x0020) = some 0x202 ∧ pcAfter 0xE4A1 (keyed 0x05 0x0040) = some 0x204 ∧
    pcAfter 0xE4A1 (keyed 0x15 0xFFFF) = some 0x204 := by decide +kernel

/-! ## Immediate and register arithmetic: registers V1, V2, VF after -/

/-- V-IMM-2. -/
theorem test_ldImm : regsAfter 0x6FFF State.reset [0xF] = some [0xFF] := by decide +kernel

/-- V-IMM-4, V-IMM-7. -/
theorem test_addImm :
    regsAfter 0x7201 (alu 0 0xFF 1) [2, 0xF] = some [0x00, 1] ∧ regsAfter 0x7F03 (alu 0 0 0xFE) [0xF] = some [0x01] := by
  decide +kernel

/-- V-ALU-33. -/
theorem test_ldReg : regsAfter 0x8120 (alu 0x12 0x34 1) [1, 2, 0xF] = some [0x34, 0x34, 1] := by decide +kernel

/-- V-ALU-34, V-ALU-48. -/
theorem test_orReg :
    regsAfter 0x8121 (alu 0x0C 0x0A 1) [1, 0xF] = some [0x0E, 1] ∧
    regsAfter 0x8F21 (alu 0 0x0A 0x0C) [0xF] = some [0x0E] := by decide +kernel

/-- V-ALU-35. -/
theorem test_andReg : regsAfter 0x8122 (alu 0x0C 0x0A 1) [1, 0xF] = some [0x08, 1] := by decide +kernel

/-- V-ALU-36, V-ALU-37. -/
theorem test_xorReg :
    regsAfter 0x8123 (alu 0x0C 0x0A 1) [1, 0xF] = some [0x06, 1] ∧
    regsAfter 0x8113 (alu 0x5C 0 1) [1, 0xF] = some [0x00, 1] := by decide +kernel

/-- V-ALU-2, V-ALU-4, V-ALU-6. -/
theorem test_addReg :
    regsAfter 0x8124 (alu 0xFF 0x01 0) [1, 2, 0xF] = some [0x00, 0x01, 1] ∧
    regsAfter 0x8124 (alu 0x80 0x7F 1) [1, 0xF] = some [0xFF, 0] ∧
    regsAfter 0x8124 (alu 0 0 1) [1, 0xF] = some [0x00, 0] := by decide +kernel

/-- V-ALU-40, V-ALU-42: VF as destination and as source. -/
theorem test_addReg_VF :
    regsAfter 0x8F14 (alu 0x20 0 0xF0) [0xF] = some [1] ∧
    regsAfter 0x81F4 (alu 0xFF 0 0x01) [1, 0xF] = some [0x00, 1] := by decide +kernel

/-- V-ALU-8, V-ALU-9, V-ALU-10, V-ALU-46. -/
theorem test_subReg :
    regsAfter 0x8125 (alu 0x10 0x20 1) [1, 0xF] = some [0xF0, 0] ∧
    regsAfter 0x8125 (alu 0x20 0x10 0) [1, 0xF] = some [0x10, 1] ∧
    regsAfter 0x8125 (alu 0x07 0x07 0) [1, 0xF] = some [0x00, 1] ∧
    regsAfter 0x8F15 (alu 0x09 0 0x05) [0xF] = some [0] := by decide +kernel

/-- V-ALU-15, V-ALU-16, V-ALU-47. -/
theorem test_subnReg :
    regsAfter 0x8127 (alu 0x10 0x20 0) [1, 0xF] = some [0x10, 1] ∧
    regsAfter 0x8127 (alu 0x20 0x10 1) [1, 0xF] = some [0xF0, 0] ∧
    regsAfter 0x8F17 (alu 0x09 0 0x05) [0xF] = some [1] := by decide +kernel

/-- V-ALU-20, V-ALU-25, V-ALU-43. -/
theorem test_shr :
    regsAfter 0x8126 (alu 0x05 0xAA 0) [1, 2, 0xF] = some [0x02, 0xAA, 1] ∧
    regsAfter 0x8126 (alu 0xFE 0 1) [1, 0xF] = some [0x7F, 0] ∧
    regsAfter 0x8F06 (alu 0 0 0x03) [0xF] = some [1] := by decide +kernel

/-- V-ALU-27, V-ALU-29, V-ALU-45. -/
theorem test_shl :
    regsAfter 0x812E (alu 0x81 0xAA 0) [1, 2, 0xF] = some [0x02, 0xAA, 1] ∧
    regsAfter 0x812E (alu 0x40 0 1) [1, 0xF] = some [0x80, 0] ∧
    regsAfter 0x8F0E (alu 0 0 0x80) [0xF] = some [1] := by decide +kernel

/-! ## Index, random -/

/-- V-IDX-1. -/
theorem test_ldI : (after 0xA300 (State.reset.setI 0xFFFF)).map State.i = some 0x0300 := by decide +kernel

/-- I and VF after `ADD I,Vx` with V2 and VF set. -/
def addIAfter (w : Nat) (i : Word) (v2 vf : Byte) : Option (Word × Byte) :=
  (after w ((alu 0 v2 vf).setI i)).map fun t => (t.i, t.reg 0xF)

/-- V-IDX-3, V-IDX-4, V-IDX-5. -/
theorem test_addI :
    addIAfter 0xF21E 0x0FFF 0x01 0 = some (0x1000, 1) ∧ addIAfter 0xF21E 0x0FF0 0x0F 1 = some (0x0FFF, 0) ∧
    addIAfter 0xF21E 0x1000 0x00 0 = some (0x1000, 1) := by decide +kernel

/-- V-IDX-6, V-IDX-9. -/
theorem test_addI_corners :
    addIAfter 0xF21E 0xFF01 0xFF 1 = some (0x0000, 0) ∧ addIAfter 0xFF1E 0x0FFE 0 0x03 = some (0x1001, 1) := by
  decide +kernel

/-- V-FNT-2, V-FNT-4, V-FNT-5. -/
theorem test_ldF :
    [0x0A, 0x10, 0xFF].map (fun v => (after 0xF229 (alu 0 v 1)).map State.i) = [some 0x082, some 0x0A0, some 0x54B] := by
  decide +kernel

/-- V-RND-1, V-RND-4. -/
theorem test_rnd :
    regsAfter 0xC30F { State.reset with rnd := 0xB7 } [3] = some [0x07] ∧
    regsAfter 0xCFA5 { State.reset with rnd := 0xFF } [0xF] = some [0xA5] := by decide +kernel

/-! ## Display -/

/-- The start of V-DSP-1: a two-row sprite at the bottom right corner. -/
def corner : State := withV (withMem (State.reset.setI 0x20C) 0x20C [0xC0, 0x81]) [(0, 62), (1, 31)]

/-- V-DSP-1: every pixel wraps on its own. -/
theorem test_drw_wraps :
    drawnAfter 0xD012 corner [(62, 31), (63, 31), (0, 31), (62, 0), (63, 0), (5, 0), (4, 0)] =
      some ([true, true, false, true, false, true, false, true], 0) := by decide +kernel

/-- V-DSP-6 and V-DSP-8. -/
theorem test_drw_reads :
    drawnAfter 0xD010 ((alu 0 0 1).setI 0xFFFF) [(0, 0)] = some ([false, false], 0) ∧
    faultAfter 0xD013 (State.reset.setI 0xFFE) = some ⟨.addressOutOfRange 0x1000, 0xD013, 0x200⟩ := by decide +kernel

/-- A display with one lit cell. -/
def oneLit (x : Fin 64) (y : Fin 32) : Display := flipPixel State.reset.disp y x

/-- V-DSP-4: bit 0 is the rightmost, and a lit cell turned off sets VF. -/
theorem test_drw_collides :
    drawnAfter 0xD011 { withMem (State.reset.setI 0x301) 0x301 [0x01] with disp := oneLit 7 0 } [(7, 0), (0, 0)] =
      some ([false, false, true], 1) := by decide +kernel

/-- V-DSP-9. -/
theorem test_cls : drawnAfter 0x00E0 { alu 0 0 1 with disp := oneLit 3 3 } [(3, 3)] = some ([false, true], 1) := by
  decide +kernel

/-! ## Keypad wait -/

/-- V-KEY-7, V-KEY-8, V-KEY-9. -/
theorem test_ldVxK :
    pcAfter 0xF30A (State.reset.setPc 0x210) = some 0x210 ∧
    (after 0xF30A { State.reset with pc := 0x210, keys := 0x0084 }).map (fun t => (t.reg 3, t.pc)) = some (2, 0x212) ∧
    regsAfter 0xFF0A { State.reset with keys := 0x8000 } [0xF] = some [0x0F] := by decide +kernel

/-! ## Timers, BCD, block transfer -/

/-- V-TMR-1. -/
theorem test_ldVxDt : regsAfter 0xF507 { State.reset with dt := 0x2C } [5] = some [0x2C] := by decide +kernel

/-- V-TMR-2. -/
theorem test_ldDtVx : (after 0xF015 (withV State.reset [(0, 0x3C)])).map State.dt = some 0x3C := by decide +kernel

/-- V-TMR-3. -/
theorem test_ldStVx : (after 0xF118 (alu 0x02 0 0)).map (fun t => (t.st, t.outputs.beep)) = some (0x02, false) := by
  decide +kernel

/-- V-BCD-1, V-BCD-8. -/
theorem test_ldB :
    bytesAfter 0xF033 (withV (State.reset.setI 0x300) [(0, 254)]) [0x300, 0x301, 0x302, 0x303] = some [2, 5, 4, 0] ∧
    bytesAfter 0xF033 (withV (State.reset.setI 0xFFD) [(0, 123)]) [0xFFC, 0xFFD, 0xFFE, 0xFFF] = some [0, 1, 2, 3] := by
  decide +kernel

/-- V-BCD-9. -/
theorem test_ldB_out_of_range :
    faultAfter 0xF033 (State.reset.setI 0xFFE) = some ⟨.addressOutOfRange 0x1000, 0xF033, 0x200⟩ := by decide +kernel

/-- V-BLK-1, V-BLK-9: the second overwrites its own instruction. -/
theorem test_storeRegs :
    bytesAfter 0xF255 (withV (State.reset.setI 0x400) [(0, 0x11), (1, 0x22), (2, 0x33), (3, 0x44)])
      [0x400, 0x401, 0x402, 0x403] = some [0x11, 0x22, 0x33, 0] ∧
    bytesAfter 0xF155 (withV (State.reset.setI 0x200) [(0, 0x12), (1, 0x08)]) [0x200, 0x201] = some [0x12, 0x08] := by
  decide +kernel

/-- V-BLK-6, V-BLK-7. -/
theorem test_storeRegs_edge :
    bytesAfter 0xFF55 (withV (State.reset.setI 0xFF0) [(0xF, 9)]) [0xFFF] = some [9] ∧
    faultAfter 0xFF55 (State.reset.setI 0xFF1) = some ⟨.addressOutOfRange 0x1000, 0xFF55, 0x200⟩ := by decide +kernel

/-- V-BLK-3. -/
theorem test_loadRegs :
    (after 0xF365 (withV (withMem (State.reset.setI 0x300) 0x300 [0xDE, 0xAD, 0xBE, 0xEF]) [(4, 0x44), (0xF, 1)])).map
      (fun t => ([0, 1, 2, 3, 4, 0xF].map t.reg, t.i)) = some ([0xDE, 0xAD, 0xBE, 0xEF, 0x44, 1], 0x300) := by
  decide +kernel

/-- V-BLK-8. -/
theorem test_loadRegs_out_of_range :
    faultAfter 0xF065 (State.reset.setI 0x1000) = some ⟨.addressOutOfRange 0x1000, 0xF065, 0x200⟩ := by decide +kernel

/-! ## The other agents -/

/-- One step with a given strobe pending. -/
def strobed (e : Strobe) (s : State) : Option State := stateOf (step { s with pending := [e] })

/-- DT and ST after one TimerStep, and `dirty`, whether a frame is presented, and BEEP. -/
def timerAfter (s : State) : Option (List Byte × List Bool) :=
  (strobed .timer60 s).map fun t => ([t.dt, t.st], [t.dirty, t.outputs.frame.isSome, t.outputs.beep])

/-- V-TMR-4, V-TMR-5, and the first TimerStep of S10. -/
theorem test_timerStep :
    timerAfter { State.reset with dt := 3 } = some ([2, 0], [false, false, false]) ∧
    timerAfter { State.reset with st := 1, dirty := true } = some ([0, 0], [false, true, false]) ∧
    timerAfter { State.reset with st := 2 } = some ([0, 1], [false, false, true]) := by decide +kernel

/-- The start of V-RST-1, reached in two parts. -/
def busy : State :=
  { withMem (withV State.reset [(3, 9)]) 0x300 [0x99] with
    i := 0x345, pc := 0x456, sp := 2, dt := 7, st := 8, disp := oneLit 1 1, dirty := true }

/-- V-RST-1. -/
theorem test_hostReset :
    (strobed .reset busy).map (fun t => (t.reg 3, t.i, t.pc, t.sp, t.dt, t.st)) = some (0, 0, 0x200, 0, 0, 0) ∧
    (strobed .reset busy).map (fun t => (cells t.disp [(1, 1), (1, 2)], t.dirty, t.mem.get 0x300)) =
      some ([true, false], true, 0x99) := by
  decide +kernel

/-- The start of V-RST-2. -/
def halted : State := { State.reset with fault := some ⟨.illegalOpcode, 0x0000, 0x206⟩ }

/-- V-RST-2, V-FET-6. -/
theorem test_halted :
    (strobed .reset halted).bind State.fault = halted.fault ∧
    (strobed (.tick 0 0) (withMem halted 0x200 [0x60, 0x01])).map (fun t => (t.reg 0, t.pc, t.fault)) =
      some (0, 0x200, halted.fault) := by decide +kernel

/-- V-RST-4, and R260 with an empty image. -/
theorem test_construct :
    (strobed (.construct defaultFont (List.replicate 3585 0)) State.reset).isNone = true ∧
    (strobed (.construct defaultFont []) halted).map (fun t => (t.mem, t.pc, t.fault)) = some ([], 0x200, none) := by
  decide +kernel

/-- V-RST-5. -/
theorem test_default_font :
    [0x050, 0x051, 0x052, 0x053, 0x054].map State.reset.mem.get = [0xF0, 0x90, 0x90, 0x90, 0xF0] ∧
    [0x09B, 0x09C, 0x09D, 0x09E, 0x09F].map State.reset.mem.get = [0xF0, 0x80, 0xF0, 0x80, 0x80] ∧
    [0x04F, 0x0A0].map State.reset.mem.get = [0x00, 0x00] := by decide +kernel

/-- R254: the stack of a snapshot holds the entries in use, oldest first. -/
theorem test_snapshot :
    ((strobed .snapshot { State.reset with sp := 2, stack := (State.reset.stack.set 0 0x206).set 1 0x30A }).bind
      fun t => t.outputs.snapshot).map Snapshot.stack = some [0x206, 0x30A] := by decide +kernel

/-! ## Witnesses: each hypothesis of each statement met by a concrete state, at the boundary where there is one -/

/-- A fresh core with a Tick next and the opcode `w` at PC = `pc`. -/
def ticking (w : Nat) (pc : Word) : State := (State.reset.setPc pc).withFetchWord 16 w

theorem witness_EncodingADecodedWordGivesItBack : decodeWord 0x0AE0 = some (.cls 0xA) := by decide

theorem witness_IgnoredFieldsHaveNoEffect : ({ State.reset with sp := 1 } : State).sp ≠ 0 := by decide

theorem witness_StepRunsTheDecodedInstruction :
    (ticking 0x6001 0xFFE).nextStrobe = .tick 0 0 ∧ (ticking 0x6001 0xFFE).fault = none ∧
    (ticking 0x6001 0xFFE).pc.toNat ≤ 0xFFE ∧
    decode [(ticking 0x6001 0xFFE).mem.get 0xFFE, (ticking 0x6001 0xFFE).mem.get 0xFFF] = .ok (.ldImm 0 1, []) := by
  decide +kernel

theorem witness_FetchIsBigEndian : (State.reset.setPc 0xFFE).pc.toNat ≤ 0xFFE := by decide

theorem witness_FetchOutsideMemoryRaises :
    ((ticking 0 0xFFF).nextStrobe = .tick 0 0 ∧ (ticking 0 0xFFF).fault = none ∧ 0xFFE < (ticking 0 0xFFF).pc.toNat) ∧
    (ticking 0 0x1000).nextStrobe = .tick 0 0 ∧ (ticking 0 0x1000).fault = none ∧
      0xFFE < (ticking 0 0x1000).pc.toNat := ⟨⟨rfl, rfl, by decide⟩, rfl, rfl, by decide⟩

theorem witness_IllegalWordRaises :
    (ticking 0x0500 0x200).nextStrobe = .tick 0 0 ∧ (ticking 0x0500 0x200).fault = none ∧
    fetch (ticking 0x0500 0x200) = .ok 0x0500 ∧ decodeWord 0x0500 = none := by decide +kernel

/-- A halted core with one strobe pending. -/
def haltedWith (e : Strobe) : State := { halted with pending := [e] }

theorem witness_TickOnHaltedCoreDoesNothing :
    (haltedWith (.tick 5 6)).nextStrobe = .tick 5 6 ∧ (haltedWith (.tick 5 6)).fault ≠ none := by decide

theorem witness_OnlyConstructionClearsFault_kept : (haltedWith (.tick 5 6)).fault ≠ none ∧
    ∃ t, step (haltedWith (.tick 5 6)) = .next t ∧ t.fault = halted.fault := ⟨by decide, _, rfl, rfl⟩

theorem witness_OnlyConstructionClearsFault_cleared : (haltedWith (.construct defaultFont [])).fault ≠ none ∧
    ∃ t, step (haltedWith (.construct defaultFont [])) = .next t ∧ t.fault = none := ⟨by decide, _, rfl, rfl⟩

theorem witness_EveryStepAnswers_refused :
    step (haltedWith (.construct defaultFont (List.replicate 3585 0))) = .refused (.imageTooLong 3585) :=
  have h : ∀ image : List Byte, image.length = 3585 →
      step (haltedWith (.construct defaultFont image)) = .refused (.imageTooLong 3585) := fun image h => by
    show construct defaultFont image _ = _
    simp [construct, h]
  h _ List.length_replicate

theorem witness_TimerStepCountsDownAndFlushes : ∀ dirty : Bool,
    ({ busy with dirty := dirty, pending := [.timer60] } : State).nextStrobe = .timer60 ∧ busy.fault = none := by decide

theorem witness_OnlyTimerStepBeeps :
    (∃ t, step { busy with pending := [.timer60] } = .next t ∧ t.outputs.beep = true) ∧
    ({ busy with pending := [.timer60] } : State).nextStrobe = .timer60 ∧ busy.fault = none ∧
    (∃ t, step (ticking 0x6001 0x200) = .next t) ∧ (ticking 0x6001 0x200).nextStrobe = .tick 0 0 :=
  ⟨⟨_, rfl, by decide⟩, rfl, rfl, ⟨_, rfl⟩, rfl⟩

theorem witness_OnlyTimerStepBeeps_others :
    ∀ e ∈ [Strobe.tick 0 0, .reset, .construct defaultFont [], .snapshot, .screenRead, .stop],
      ({ busy with pending := [e] } : State).nextStrobe ≠ .timer60 ∧
      ∃ t, step { busy with pending := [e] } = .next t := by
  simp only [List.forall_mem_cons]
  exact ⟨⟨nofun, _, rfl⟩, ⟨nofun, _, rfl⟩, ⟨nofun, _, rfl⟩, ⟨nofun, _, rfl⟩, ⟨nofun, _, rfl⟩, ⟨nofun, _, rfl⟩, nofun⟩

theorem witness_HostResetRestoresRegistersOnly :
    ({ busy with pending := [.reset] } : State).nextStrobe = .reset ∧ busy.fault = none := by decide

theorem witness_ConstructionLoadsFontAndImage :
    (haltedWith (.construct defaultFont (List.replicate 3584 1))).nextStrobe =
      .construct defaultFont (List.replicate 3584 1) ∧ (List.replicate 3584 (1 : Byte)).length ≤ 3584 :=
  ⟨rfl, Nat.le_of_eq List.length_replicate⟩

theorem witness_DebugReadsChangeNothing : busy.fault = none ∧
    ∀ e ∈ [Strobe.snapshot, .screenRead, .stop], ({ busy with pending := [e] } : State).nextStrobe = e := by
  decide

theorem witness_EveryStepKeepsCanonicalForm : (ticking 0x6001 0x200).Inv ∧
    ∃ t, step (ticking 0x6001 0x200) = .next t := ⟨⟨by decide +kernel, by intro r h; cases h⟩, _, rfl⟩

theorem witness_EveryStepKeepsPcBound : (ticking 0x6001 0x200).PcInv ∧
    ∃ t, step (ticking 0x6001 0x200) = .next t := ⟨fun _ => ⟨by decide, nofun⟩, _, rfl⟩

theorem witness_OnlyDrawAndClearChangeTheDisplay : busy.Safe ∧
    (∃ t, exec (.cls 0) { busy with dirty := false } = .next t ∧ t.Safe ∧ t.dirty ≠ false) ∧
    ∃ t, exec (.jp 0) busy = .next t ∧ t.Safe ∧ busy.dirty = true :=
  ⟨rfl, ⟨_, rfl, rfl, by decide⟩, _, rfl, rfl, rfl⟩

theorem witness_OnlyBcdAndBlockStoreChangeMemory : busy.Safe ∧
    ∃ t, exec (.ldB 3) busy = .next t ∧ t.Safe ∧ t.mem.get 0x347 ≠ busy.mem.get 0x347 :=
  ⟨rfl, _, rfl, rfl, by decide +kernel⟩

theorem witness_OnlyCallAndReturnChangeTheStack : busy.Safe ∧
    (∃ t, exec (.call 0) busy = .next t ∧ t.Safe ∧ t.sp ≠ busy.sp) ∧
    ∃ t, exec (.ret 0) busy = .next t ∧ t.Safe ∧ t.sp ≠ busy.sp :=
  ⟨rfl, ⟨_, rfl, rfl, by decide⟩, _, rfl, rfl, by decide⟩

theorem witness_TimersAndIndexHaveFewWriters : busy.Safe ∧
    (∃ t, exec (.ldDtVx 3) busy = .next t ∧ t.Safe ∧ t.dt ≠ busy.dt) ∧
    (∃ t, exec (.ldStVx 3) busy = .next t ∧ t.Safe ∧ t.st ≠ busy.st) ∧
    ∃ t, exec (.addI 3) busy = .next t ∧ t.Safe ∧ t.i ≠ busy.i :=
  ⟨rfl, ⟨_, rfl, rfl, by decide⟩, ⟨_, rfl, rfl, by decide⟩, _, rfl, rfl, by decide⟩

theorem witness_VfHasSevenFlagWriters : (alu 5 6 0).Safe ∧
    (∃ t, exec (.subnReg 1 2) (alu 5 6 0) = .next t ∧ t.Safe ∧ t.reg 0xF ≠ (alu 5 6 0).reg 0xF) ∧
    ∃ t, exec (.ldReg 0xF 2) (alu 5 6 0) = .next t ∧ t.Safe ∧ t.reg 0xF ≠ (alu 5 6 0).reg 0xF :=
  ⟨rfl, ⟨_, rfl, rfl, by decide⟩, _, rfl, rfl, by decide⟩

/-- A core with two return addresses on its stack. -/
def nested : State := { busy with stack := (State.reset.stack.set 0 0x206).set 1 0x30A }

theorem witness_PcFollowsTheEffectTable :
    (∃ t, exec (.seImm 3 9) nested = .next t ∧ t.Safe ∧ t.pc ≠ nested.pc) ∧
    (∃ t, exec (.ldVxK 3) nested = .next t ∧ t.Safe ∧ t.pc ≠ nested.pc) ∧
    (∃ t, exec (.jp 0xFFF) nested = .next t ∧ t.Safe ∧ t.pc ≠ nested.pc) ∧
    (∃ t, exec (.jpV0 0xFFF) nested = .next t ∧ t.Safe ∧ t.pc ≠ nested.pc) ∧
    ∃ t, exec (.ret 0) nested = .next t ∧ t.Safe ∧ t.pc ≠ nested.pc :=
  ⟨⟨_, rfl, rfl, by decide⟩, ⟨_, rfl, rfl, by decide⟩, ⟨_, rfl, rfl, by decide⟩, ⟨_, rfl, rfl, by decide⟩,
    _, rfl, rfl, by decide⟩

theorem witness_HandlersRaiseOnlyTheListedConditions :
    (∃ t, exec (.call 0) { busy with sp := 16 } = .next t ∧ ¬ t.Safe) ∧
    (∃ t, exec (.ret 0) { busy with sp := 0 } = .next t ∧ ¬ t.Safe) ∧
    (∃ t, exec (.ldB 0) (busy.setI 0xFFE) = .next t ∧ ¬ t.Safe) ∧
    (∃ t, exec (.storeRegs 1) (busy.setI 0xFFF) = .next t ∧ ¬ t.Safe) ∧
    (∃ t, exec (.loadRegs 0) (busy.setI 0x1000) = .next t ∧ ¬ t.Safe) ∧
    ∃ t, exec (.drw 0 0 1) (busy.setI 0x1000) = .next t ∧ ¬ t.Safe :=
  ⟨⟨_, rfl, nofun⟩, ⟨_, rfl, nofun⟩, ⟨_, rfl, nofun⟩, ⟨_, rfl, nofun⟩, ⟨_, rfl, nofun⟩, _, rfl, nofun⟩

theorem witness_InputsReachOnlyFourInstructions :
    (∃ t, exec (.addReg 1 2) busy = .next t ∧ t.Safe) ∧
    ((∀ x, Instr.addReg 1 2 ≠ .skp x ∧ Instr.addReg 1 2 ≠ .sknp x ∧ Instr.addReg 1 2 ≠ .ldVxK x) ∨ 7 = busy.keys) ∧
    ((∀ x nn, Instr.addReg 1 2 ≠ .rnd x nn) ∨ 7 = busy.rnd) :=
  ⟨⟨_, rfl, rfl⟩, .inl fun _ => ⟨nofun, nofun, nofun⟩, .inl nofun⟩

/-- The fatal outcome, and the instructions that use an input. -/
theorem witness_InputsReachOnlyFourInstructions_others :
    (∃ t, exec (.ret 0) State.reset = .next t ∧ ¬ t.Safe) ∧
    (∃ t, exec (.skp 3) busy = .next t ∧ t.Safe) ∧ busy.keys = busy.keys ∧
    (∃ t, exec (.rnd 3 9) busy = .next t ∧ t.Safe) ∧ busy.rnd = busy.rnd :=
  ⟨⟨_, rfl, nofun⟩, ⟨_, rfl, rfl⟩, rfl, ⟨_, rfl, rfl⟩, rfl⟩

theorem witness_SoundAndDisplayAreWriteOnly :
    (∃ t, exec (.addReg 1 2) busy = .next t ∧ t.Safe) ∧
    ((∀ x y n, Instr.addReg 1 2 ≠ .drw x y n) ∨ State.reset.disp = busy.disp) := ⟨⟨_, rfl, rfl⟩, .inl nofun⟩

/-- The fatal outcome, and DRW on an unchanged display. -/
theorem witness_SoundAndDisplayAreWriteOnly_others :
    (∃ t, exec (.ret 0) State.reset = .next t ∧ ¬ t.Safe) ∧
    (∃ t, exec (.drw 0 1 2) corner = .next t ∧ t.Safe) ∧ corner.disp = corner.disp :=
  ⟨⟨_, rfl, nofun⟩, ⟨_, rfl, rfl⟩, rfl⟩

theorem witness_CallPushesTheAdvancedPc :
    ({ busy with sp := 15 } : State).sp.val < 16 ∧ ({ busy with sp := 16 } : State).sp.val = 16 := by decide

theorem witness_ReturnPopsTheNewestEntry :
    0 < ({ busy with sp := 1 } : State).sp.val ∧ ({ busy with sp := 0 } : State).sp.val = 0 := by decide

/-- A subroutine at 0x300 that itself called and returned: the slot above SP holds the inner return address. -/
theorem witness_CallThenReturnComesBack :
    ({ busy with sp := 15 } : State).sp.val < 16 ∧ State.reset.sp.val < 16 ∧
    (∃ t, exec (.call 0xFFF) { busy with sp := 15 } = .next t ∧ (t.setPc 0x300).sp = t.sp ∧
      (t.setPc 0x300).entries = t.entries) ∧
    ∃ t, exec (.call 0x300) State.reset = .next t ∧
      ({ t with stack := t.stack.set 1 0x304 } : State).entries = t.entries ∧ t.stack.set 1 0x304 ≠ t.stack :=
  ⟨by decide, by decide, ⟨_, rfl, rfl, rfl⟩, _, rfl, by decide, by decide⟩

/-- The hypotheses on operands of the arithmetic statements: a destination other than VF, and a third register. -/
theorem witness_flag_statements : (1 : Nib) ≠ 0xF ∧ (2 : Nib) ≠ 1 ∧ (2 : Nib) ≠ 0xF := by decide

theorem witness_DrawXorsTheSprite :
    ((0 : Nib).toNat = 0) ∧ (State.reset.setI 0xFF1).i.toNat + ((0xF : Nib).toNat - 1) ≤ 0xFFF ∧
    0 < (0xF : Nib).toNat ∧ 0xFFF < (State.reset.setI 0xFF2).i.toNat + ((0xF : Nib).toNat - 1) := by decide

theorem witness_DrawingTwiceRestoresTheDisplay :
    corner.i.toNat + ((2 : Nib).toNat - 1) ≤ 0xFFF ∧ ∃ t, exec (.drw 0 1 2) corner = .next t ∧
      t.mem = corner.mem ∧ t.i = corner.i ∧ t.reg 0 = corner.reg 0 ∧ t.reg 1 = corner.reg 1 :=
  ⟨by decide, _, rfl, rfl, rfl, rfl, rfl⟩

theorem witness_KeyWaitRetriesOrLoads :
    State.reset.keys = 0 ∧ ({ State.reset with keys := 0x8000 } : State).keys ≠ 0 := by decide

theorem witness_BcdStoresThreeDigits :
    (State.reset.setI 0xFFD).ea 2 ≤ 0xFFF ∧ (State.reset.setI 0xFFD).mem.wf = true ∧
    0xFFF < (State.reset.setI 0xFFE).ea 2 := by decide

theorem witness_BlockStoreWritesV0ToVx :
    (State.reset.setI 0xFF0).ea (0xF : Nib).toNat ≤ 0xFFF ∧ (State.reset.setI 0xFF0).mem.wf = true ∧
    0xFFF < (State.reset.setI 0xFF1).ea (0xF : Nib).toNat := by decide

theorem witness_BlockLoadReadsV0ToVx :
    (State.reset.setI 0xFFF).ea (0 : Nib).toNat ≤ 0xFFF ∧ 0xFFF < (State.reset.setI 0x1000).ea (0 : Nib).toNat ∧
    (0 : Nib).toNat < (1 : Nib).toNat := by decide

/-- The store covers both bytes fetched. -/
theorem witness_NextFetchSeesTheStore_both : State.reset.mem.wf = true ∧ State.reset.pc.toNat ≤ 0xFFE ∧
    (State.reset.setI 0x200).ea (1 : Nib).toNat ≤ 0xFFF ∧
    (∃ t, exec (.storeRegs 1) (State.reset.setI 0x200) = .next t) ∧
    0x200 + (0 : Fin 2).val = (State.reset.setI 0x200).ea (0 : Nib).toNat ∧
    0x200 + (1 : Fin 2).val = (State.reset.setI 0x200).ea (1 : Nib).toNat :=
  ⟨rfl, by decide, by decide, ⟨_, rfl⟩, rfl, rfl⟩

/-- The store of LD [I],Vx ends on the first byte fetched, or begins on the second. -/
theorem witness_NextFetchSeesTheStore_one :
    (∃ t, exec (.storeRegs 1) (State.reset.setI 0x1FF) = .next t) ∧
    0x200 + (0 : Fin 2).val = (State.reset.setI 0x1FF).ea (1 : Nib).toNat ∧
    (State.reset.setI 0x1FF).ea (1 : Nib).toNat < 0x200 + (1 : Fin 2).val ∧
    (∃ t, exec (.storeRegs 0) (State.reset.setI 0x201) = .next t) ∧
    0x200 + (0 : Fin 2).val < (State.reset.setI 0x201).ea 0 ∧
    0x200 + (1 : Fin 2).val = (State.reset.setI 0x201).ea (0 : Nib).toNat :=
  ⟨⟨_, rfl⟩, rfl, by decide, ⟨_, rfl⟩, by decide, rfl⟩

/-- The store of LD B,Vx at the top of memory: both bytes at PC = 0xFFE, the first digit only at PC = 0xFFC, and the
last digit only, with PC at its address. -/
theorem witness_NextFetchSeesTheStore_bcd :
    (State.reset.setI 0xFFD).ea 2 ≤ 0xFFF ∧ (∃ t, exec (.ldB 0) ((State.reset.setI 0xFFD).setPc 0xFFE) = .next t) ∧
    0xFFE + (0 : Fin 2).val = (State.reset.setI 0xFFD).ea 1 ∧ 0xFFE + (1 : Fin 2).val = (State.reset.setI 0xFFD).ea 2 ∧
    0xFFC + (0 : Fin 2).val < (State.reset.setI 0xFFD).ea 0 ∧ 0xFFC + (1 : Fin 2).val = (State.reset.setI 0xFFD).ea 0 ∧
    0x202 + (0 : Fin 2).val = (State.reset.setI 0x200).ea 2 ∧ (State.reset.setI 0x200).ea 2 < 0x202 + (1 : Fin 2).val :=
  ⟨by decide, ⟨_, rfl⟩, rfl, rfl, by decide, rfl, rfl, by decide⟩

end Sys2Proof.Tests
end

/-!
SUPPORT. Which parts of the state an instruction that completes can write, said once over all 34 instructions
(10_state.md R20 to R30); each statement about the writers of a field is read off it.
-/

namespace Sys2Proof.Machine

/-- The destination of the instructions that write VX and no flag (R22). -/
def vxDest : Instr → Option Nib
  | .ldImm x _ | .addImm x _ | .rnd x _ | .ldReg x _ | .orReg x _ | .andReg x _ | .xorReg x _ | .ldVxDt x
  | .ldVxK x => some x
  | _ => none

/-- The destination of the ALU instructions that write VX and then the flag (R22, R140). -/
def vxFlagDest : Instr → Option Nib
  | .addReg x _ | .subReg x _ | .shr x _ | .subnReg x _ | .shl x _ => some x
  | _ => none

/-- `Completes s i t`: `t` is `s` but for what `i` may write where it takes no fatal condition. `pc` is for the
instructions that move PC at most and names none of them; which values are written is each meaning's own matter. -/
inductive Completes (s : State) : Instr → State → Prop where
  | pc (i : Instr) (w : Word) : Completes s i (s.setPc w)
  | vx {i : Instr} {x : Nib} (hi : vxDest i = some x) (b : Byte) : Completes s i (s.setReg x b)
  | vxFlag {i : Instr} {x : Nib} (hi : vxFlagDest i = some x) (b : Byte) (f : Bool) :
      Completes s i ((s.setReg x b).setFlag f)
  | block (x : Nib) (v : Vector Byte 16) (hv : ∀ r : Nib, x.toNat < r.toNat → v[r.toNat] = s.v[r.toNat]) :
      Completes s (.loadRegs x) { s with v := v }
  | store {i : Instr} {x : Nib} (hi : i = .ldB x ∨ i = .storeRegs x) (m : Memory) : Completes s i (s.setMem m)
  | ldI (nnn : Addr) (w : Word) : Completes s (.ldI nnn) (s.setI w)
  | ldF (x : Nib) (w : Word) : Completes s (.ldF x) (s.setI w)
  | addI (x : Nib) (w : Word) (f : Bool) : Completes s (.addI x) ((s.setI w).setFlag f)
  | dt (x : Nib) (b : Byte) : Completes s (.ldDtVx x) { s with dt := b }
  | st (x : Nib) (b : Byte) : Completes s (.ldStVx x) { s with st := b }
  | cls (u : Nib) : Completes s (.cls u) { s with disp := blankDisplay, dirty := true }
  | drw (x y n : Nib) (d : Display) (changed f : Bool) :
      Completes s (.drw x y n) ({ s with disp := d, dirty := s.dirty || changed }.setFlag f)
  | call (nnn : Addr) (h : s.sp.val < 16) :
      Completes s (.call nnn)
        ({ s with
            stack := s.stack.set s.sp.val s.pc h
            sp := ⟨s.sp.val + 1, Nat.succ_lt_succ h⟩ }.setPc (zextAddr nnn))
  | ret (u : Nib) {n : Nat} (h : n < 16) (hsp : s.sp.val = n + 1) :
      Completes s (.ret u) ({ s with sp := ⟨n, Nat.lt_succ_of_lt h⟩ }.setPc s.stack[n])

section

variable {s t : State}

/-- A skip moves PC at most (R105). -/
theorem skipIf_completes (i : Instr) (c : Bool) : Completes s i (s.skipIf c) := by
  cases c with
  | false => exact .pc i s.pc
  | true => exact .pc i (s.pc + 2)

/-- Ascending loads replace the register file only, as an equation for the whole state (R206). -/
theorem State.loadRegsFrom_eq (s : State) (k : Nat) (bs : List Byte) :
    s.loadRegsFrom k bs = { s with v := (s.loadRegsFrom k bs).v } :=
  congrArg (fun u : State => { u with v := (s.loadRegsFrom k bs).v }) (State.loadRegsFrom_frame s k bs)

theorem Memory.readBytes_length {m : Memory} {a n : Nat} {bs : List Byte} (h : m.readBytes a n = .ok bs) :
    bs.length = n := by
  rw [Memory.readBytes_eq] at h
  split at h
  · cases h
    rw [List.length_map, List.length_range']
  · cases h

theorem execLoadRegs_completes {x : Nib} (h : execLoadRegs x s = .next t) (ht : t.Safe) :
    Completes s (.loadRegs x) t := by
  cases hr : s.mem.readBytes (s.ea 0) (x.toNat + 1) with rw [execLoadRegs, hr] at h
  | error a => exact absurd ht (not_safe_of_raiseIn h)
  | ok bs =>
    cases h
    rw [State.loadRegsFrom_eq]
    refine .block x _ fun r hx => ?_
    have hlen : bs.length ≤ r.toNat - 0 := by rw [Memory.readBytes_length hr]; exact hx
    rw [State.loadRegsFrom_v r.isLt, if_pos (Nat.zero_le _), List.getD_eq_default _ _ hlen]

theorem execDrw_completes {x y n : Nib} (h : execDrw x y n s = .next t) (ht : t.Safe) :
    Completes s (.drw x y n) t := by
  cases hr : s.mem.readBytes (s.ea 0) n.toNat with rw [execDrw, hr] at h
  | error a => exact absurd ht (not_safe_of_raiseIn h)
  | ok bs =>
    cases h
    exact .drw x y n _ _ _

theorem storeAtI_completes {i : Instr} {x : Nib} {bs : List Byte} (hi : i = .ldB x ∨ i = .storeRegs x)
    (hb : bs ≠ []) (h : s.storeAtI i bs = .next t) (ht : t.Safe) : Completes s i t := by
  rcases s.storeAtI_cases i hb with ⟨_, he⟩ | ⟨_, he⟩ <;> rw [he] at h
  · cases h
    exact .store hi _
  · exact absurd ht (not_safe_of_raiseIn h)

theorem execCall_completes {nnn : Addr} (h : execCall nnn s = .next t) (ht : t.Safe) : Completes s (.call nnn) t := by
  rcases s.push_cases s.pc with ⟨hsp, hp⟩ | ⟨_, hp⟩ <;> rw [execCall, hp] at h
  · cases h
    exact .call nnn hsp
  · exact absurd ht (not_safe_of_raiseIn h)

theorem execRet_completes {u : Nib} (h : execRet u s = .next t) (ht : t.Safe) : Completes s (.ret u) t := by
  rcases s.pop_cases with ⟨_, hp⟩ | ⟨n, hn, hsp, hp⟩ <;> rw [execRet, hp] at h
  · exact absurd ht (not_safe_of_raiseIn h)
  · cases h
    exact .ret u hn hsp

theorem execLdVxK_completes {x : Nib} (h : execLdVxK x s = .next t) : Completes s (.ldVxK x) t := by
  rw [execLdVxK] at h
  split at h
  · cases h
    exact .pc _ _
  · cases h
    exact .vx rfl _

/-- Everything an instruction can write where it takes no fatal condition. -/
theorem exec_completes : ∀ {i : Instr}, exec i s = .next t → t.Safe → Completes s i t
  | .cls u, rfl, _ => .cls u
  | .ret _, h, ht => execRet_completes h ht
  | .jp _, rfl, _ => .pc _ _
  | .call _, h, ht => execCall_completes h ht
  | .seImm _ _, rfl, _ | .sneImm _ _, rfl, _ | .seReg _ _ _, rfl, _ => skipIf_completes _ _
  | .sneReg _ _ _, rfl, _ | .skp _, rfl, _ | .sknp _, rfl, _ => skipIf_completes _ _
  | .ldImm _ _, rfl, _ | .addImm _ _, rfl, _ | .rnd _ _, rfl, _ | .ldVxDt _, rfl, _ => .vx rfl _
  | .ldReg _ _, rfl, _ | .orReg _ _, rfl, _ | .andReg _ _, rfl, _ | .xorReg _ _, rfl, _ => .vx rfl _
  | .addReg _ _, rfl, _ | .subReg _ _, rfl, _ | .subnReg _ _, rfl, _ => .vxFlag rfl _ _
  | .shr _ _, rfl, _ | .shl _ _, rfl, _ => .vxFlag rfl _ _
  | .ldI nnn, rfl, _ => .ldI nnn _
  | .jpV0 _, rfl, _ => .pc _ _
  | .drw _ _ _, h, ht => execDrw_completes h ht
  | .ldVxK _, h, _ => execLdVxK_completes h
  | .ldDtVx x, rfl, _ => .dt x _
  | .ldStVx x, rfl, _ => .st x _
  | .addI x, rfl, _ => .addI x _ _
  | .ldF x, rfl, _ => .ldF x _
  | .ldB _, h, ht => storeAtI_completes (.inl rfl) (List.ne_nil_of_length_eq_add_one (bcdDigits_length _)) h ht
  | .storeRegs x, h, ht =>
    storeAtI_completes (.inr rfl) (List.ne_nil_of_length_eq_add_one (s.regsUpTo_length x)) h ht
  | .loadRegs _, h, ht => execLoadRegs_completes h ht

end

/-! ## The instructions a destination stands for -/

theorem eq_of_vxDest {i : Instr} {x : Nib} (h : vxDest i = some x) :
    (∃ y nn, i = .ldImm x nn ∨ i = .addImm x nn ∨ i = .rnd x nn ∨ i = .ldReg x y ∨ i = .orReg x y ∨
      i = .andReg x y ∨ i = .xorReg x y) ∨ i = .ldVxDt x ∨ i = .ldVxK x := by
  unfold vxDest at h
  split at h <;> cases h <;> simp

theorem eq_of_vxFlagDest {i : Instr} {x : Nib} (h : vxFlagDest i = some x) :
    ∃ y, i = .addReg x y ∨ i = .subReg x y ∨ i = .shr x y ∨ i = .subnReg x y ∨ i = .shl x y := by
  unfold vxFlagDest at h
  split at h <;> cases h <;> simp

/-! ## Which instructions write what -/

/-- Settles O24: of what an instruction can write, only CLS and DRW reach the display and `dirty`, and both leave
`dirty` set where it was. -/
theorem onlyDrawAndClearChangeTheDisplay : Obligations.OnlyDrawAndClearChangeTheDisplay := by
  intro i s t _ h ht
  cases exec_completes h ht with
  | cls u => exact ⟨fun _ => .inl ⟨u, rfl⟩, fun _ => rfl⟩
  | drw x y n d changed f => exact ⟨fun _ => .inr ⟨x, y, n, rfl⟩, fun hd => by simp [hd]⟩
  | _ => exact ⟨fun hne => absurd hne (by simp), id⟩

/-- Settles O26: of what an instruction can write, only CALL and RET reach SP and the slots. -/
theorem onlyCallAndReturnChangeTheStack : Obligations.OnlyCallAndReturnChangeTheStack := by
  intro i s t _ h ht hne
  cases exec_completes h ht with
  | call nnn _ => exact .inl ⟨nnn, rfl, rfl⟩
  | ret u _ hsp => exact .inr ⟨u, rfl, hsp.symm⟩
  | _ => exact absurd hne (by simp)

/-- Settles O27: each of DT, ST and I is reached by its own writers only. -/
theorem timersAndIndexHaveFewWriters : Obligations.TimersAndIndexHaveFewWriters := by
  intro i s t _ h ht
  cases exec_completes h ht with
  | dt x _ => exact ⟨fun _ => ⟨x, rfl⟩, absurd rfl, absurd rfl⟩
  | st x _ => exact ⟨absurd rfl, fun _ => ⟨x, rfl⟩, absurd rfl⟩
  | ldI nnn _ => exact ⟨absurd rfl, absurd rfl, fun _ => .inl ⟨nnn, rfl⟩⟩
  | ldF x _ => exact ⟨absurd rfl, absurd rfl, fun _ => .inr ⟨x, .inr rfl⟩⟩
  | addI x _ _ => exact ⟨absurd rfl, absurd rfl, fun _ => .inr ⟨x, .inl rfl⟩⟩
  | _ => exact ⟨absurd rfl, absurd rfl, absurd rfl⟩

/-- Settles O28: a write of VX reaches VF only where X is F, and every other write that reaches VF is a flag's. -/
theorem vfHasSevenFlagWriters : Obligations.VfHasSevenFlagWriters := by
  intro i s t _ h ht hne
  cases exec_completes h ht with
  | @vx _ x hi b =>
    obtain rfl : x = 0xF := by_contra fun hx => hne (State.reg_setReg_other (Ne.symm hx))
    exact .inr (.inr (.inr ((eq_of_vxDest hi).imp_right (Or.imp_right .inl))))
  | @vxFlag _ x hi _ _ => exact .inl ⟨x, eq_of_vxFlagDest hi⟩
  | block x v hv =>
    obtain rfl : x = 0xF := by_contra fun hx => hne (hv 0xF (by bv_omega))
    exact .inr (.inr (.inr (.inr (.inr (.inr rfl)))))
  | addI x _ _ => exact .inr (.inl ⟨x, rfl⟩)
  | drw x y n _ _ _ => exact .inr (.inr (.inl ⟨x, y, n, rfl⟩))
  | _ => exact absurd rfl hne

/-! ## Reset -/

theorem resetByte_font {j : Nat} (h : j < 80) : resetByte (0x050 + j) = fontData.getD j 0 := by
  rw [resetByte, if_pos (by simp only [Config.fontBase, Config.fontLen]; omega), Nat.add_sub_cancel_left]

theorem resetByte_outside_font {a : Nat} (h : a < 0x050 ∨ 0x0A0 ≤ a) : resetByte a = 0 :=
  if_neg (by simp only [Config.fontBase, Config.fontLen]; omega)

/-- Settles O19: every listed value is a field of `State.reset`, whose empty memory reads as the default font and
0x00. -/
theorem resetLeavesTheListedValues : Obligations.ResetLeavesTheListedValues := by
  have hreg : ∀ r, State.reset.reg r = 0 := fun r => Vector.getElem_replicate r.isLt
  have hpixel : ∀ y x, pixel State.reset.disp y x = false := fun y x => by simp [pixel, State.reset]
  have hfont : ∀ g k : Nat, g < 16 → k < 5 →
      State.reset.mem.get (0x050 + 5 * g + k) = fontData.getD (5 * g + k) 0 := fun g k hg hk => by
    rw [Nat.add_assoc]
    exact resetByte_font (by omega)
  have houtside : ∀ a, a < 0x050 ∨ 0x0A0 ≤ a → State.reset.mem.get a = 0 := fun _ => resetByte_outside_font
  exact ⟨hreg, rfl, rfl, rfl, rfl, rfl, hpixel, rfl, rfl, hfont, houtside⟩

end Sys2Proof.Machine

/-!
SUPPORT. Memory as the rest of the core sees it (20_memory.md R50 to R63): what Construction leaves there, which
instructions change it, and what a fetch reads from it, right after a store too.
-/

namespace Sys2Proof.Machine

section

variable {s t : State}

/-- A fetch inside memory reads the byte at PC first (R52, R101). -/
theorem fetch_inside (hp : s.pc.toNat ≤ 0xFFE) :
    fetch s = .ok (wordOfBytes (s.mem.get s.pc.toNat) (s.mem.get (s.pc.toNat + 1))) := by
  rw [fetch_eq, if_pos hp]

/-- A Construction strobe over an image that fits gives the fresh core of R260. -/
theorem step_construct {font : Vector Byte 80} {image : List Byte} (hs : s.nextStrobe = .construct font image)
    (hlen : image.length ≤ 3584) :
    step s = .next { State.reset with
      mem := constructedMemory font image
      keys := s.keys, rnd := s.rnd, pending := s.pending.tail, draws := s.draws + 1 } := by
  rw [step_eq, hs]
  exact if_pos hlen

/-- The three digits as numbers (R203). -/
theorem bcdDigits_toNat (v : Byte) :
    ((bcdDigits v).getD 0 0).toNat = v.toNat / 100 ∧ ((bcdDigits v).getD 1 0).toNat = v.toNat / 10 % 10 ∧
      ((bcdDigits v).getD 2 0).toNat = v.toNat % 10 := by
  have hv := v.isLt
  exact ⟨Nat.mod_eq_of_lt (by omega), Nat.mod_eq_of_lt (by omega), Nat.mod_eq_of_lt (by omega)⟩

/-- A byte that a fill covers reads as the one placed there. -/
theorem Memory.get_fill_covered {m : Memory} {a k : Nat} {bs : List Byte} (hm : m.wf = true)
    (hend : a + bs.length ≤ 4096) (hk : k < bs.length) : (m.fill a bs).get (a + k) = bs.getD k 0 := by
  rw [Memory.get_fill hm hend, if_pos (by omega), Nat.add_sub_cancel_left]

/-- A store whose addresses all exist completes, and writes memory only (R56, R207). -/
theorem State.storeAtI_inside {i : Instr} {bs : List Byte} (hb : bs ≠ []) (hend : s.ea 0 + bs.length ≤ 4096)
    (h : s.storeAtI i bs = .next t) : t = s.setMem (s.mem.fill (s.ea 0) bs) := by
  rcases s.storeAtI_cases i hb with ⟨_, he⟩ | ⟨hlt, _⟩
  · exact (Host.Outcome.next.inj (he.symm.trans h)).symm
  · exact absurd hend (Nat.not_le.mpr hlt)

/-- The fetch after a completed store (R63, decision D29): each of its two bytes is on its own the one stored there,
where the store covers it, and the old one elsewhere. -/
theorem fetch_after_storeAtI {i : Instr} {bs : List Byte} (hm : s.mem.wf = true) (hp : s.pc.toNat ≤ 0xFFE)
    (hb : bs ≠ []) (hend : s.ea 0 + bs.length ≤ 4096) (h : s.storeAtI i bs = .next t) :
    ∃ (op : Word) (byte : Fin 2 → Byte), fetch t = .ok op ∧
      op.toNat = (byte 0).toNat * 256 + (byte 1).toNat ∧
      ∀ d : Fin 2,
        (∀ k < bs.length, s.pc.toNat + d.val = s.ea k → byte d = bs.getD k 0) ∧
        (s.pc.toNat + d.val < s.ea 0 ∨ s.ea bs.length ≤ s.pc.toNat + d.val →
          byte d = s.mem.get (s.pc.toNat + d.val)) := by
  obtain rfl := State.storeAtI_inside hb hend h
  refine ⟨_, fun d => (s.mem.fill (s.ea 0) bs).get (s.pc.toNat + d.val), fetch_inside hp, wordOfBytes_toNat _ _,
    fun d => ⟨fun k hk ha => ?_, Memory.get_fill_other⟩⟩
  exact (congrArg _ ha).trans (Memory.get_fill_covered hm hend hk)

end

/-- Settles O8: a fetch inside memory pairs the bytes at PC and PC + 1, the first one high. -/
theorem fetchIsBigEndian : Obligations.FetchIsBigEndian :=
  fun _ hp => ⟨_, fetch_inside hp, wordOfBytes_toNat _ _⟩

/-- Settles O17: the fresh core is `State.reset` over the constructed memory, which reads as font, image and zeros. -/
theorem constructionLoadsFontAndImage : Obligations.ConstructionLoadsFontAndImage := by
  intro s font image hs hlen
  obtain ⟨hreg, hi, hpc, hsp, hdt, hst, hpixel, hdirty, hfault, -⟩ := resetLeavesTheListedValues
  exact ⟨_, step_construct hs hlen, fun a _ => constructedMemory_get font a hlen, hreg, hi,
    congrArg BitVec.toNat hpc, hsp, hdt, hst, hpixel, hdirty, hfault⟩

/-- Settles O25: of what an instruction can write, only the two stores reach memory. -/
theorem onlyBcdAndBlockStoreChangeMemory : Obligations.OnlyBcdAndBlockStoreChangeMemory := by
  rintro i s t _ h ht ⟨a, hne⟩
  cases exec_completes h ht with
  | @store _ x hi _ => exact ⟨x, hi⟩
  | _ => exact absurd rfl hne

/-- Settles O58: both stores write from I on, and the next fetch reads the memory they leave. -/
theorem nextFetchSeesTheStore : Obligations.NextFetchSeesTheStore := by
  intro x s t hm hp
  constructor
  · intro hend h
    have hlen := s.regsUpTo_length x
    obtain ⟨op, byte, hf, hop, hbyte⟩ :=
      fetch_after_storeAtI hm hp (List.ne_nil_of_length_eq_add_one hlen) (by rw [hlen]; exact Nat.succ_le_succ hend) h
    refine ⟨op, byte, hf, hop, fun d => ?_⟩
    obtain ⟨hcovered, hother⟩ := hbyte d
    rw [hlen] at hcovered hother
    exact ⟨fun k hk ha => (hcovered k.toNat (Nat.lt_succ_of_le hk) ha).trans (State.regsUpTo_getD hk), hother⟩
  · intro hend h
    obtain ⟨op, byte, hf, hop, hbyte⟩ :=
      fetch_after_storeAtI (bs := bcdDigits (s.reg x)) hm hp (List.cons_ne_nil _ _) (Nat.succ_le_succ hend) h
    refine ⟨op, byte, hf, hop, fun d => ?_⟩
    obtain ⟨hcovered, hother⟩ := hbyte d
    rw [bcdDigits_length] at hcovered hother
    obtain ⟨hhundreds, htens, hones⟩ := bcdDigits_toNat (s.reg x)
    exact ⟨fun ha => (congrArg _ (hcovered 0 (by decide) ha)).trans hhundreds,
      fun ha => (congrArg _ (hcovered 1 (by decide) ha)).trans htens,
      fun ha => (congrArg _ (hcovered 2 (by decide) ha)).trans hones, hother⟩

end Sys2Proof.Machine

/-!
SUPPORT. The decoder and the encoder as inverses of each other, the rows of the opcode map, and the illegal space
(30_encoding.md R72 to R80).
-/

namespace Sys2Proof

/-! ## From an instruction to its word and back -/

/-- The fields of a packed word choose the branch of the decoder, at one level or at two (R73), and are its
operands. -/
theorem decodeWord_encode (i : Instr) : decodeWord (encode i) = some i := by
  cases i with
  | jp | call | seImm | sneImm | seReg | ldImm | addImm | sneReg | ldI | jpV0 | rnd | drw =>
    simp [encode, decodeWord]
  | cls | ret => simp [encode, decodeWord, decodeGroup0]
  | ldReg | orReg | andReg | xorReg | addReg | subReg | shr | subnReg | shl =>
    simp [encode, decodeWord, decodeGroup8]
  | skp | sknp => simp [encode, decodeWord, decodeGroupE]
  | ldVxDt | ldVxK | ldDtVx | ldStVx | addI | ldF | ldB | storeRegs | loadRegs =>
    simp [encode, decodeWord, decodeGroupF]

section

variable {op : Word} {i : Instr} {p n : Nib} {nn : Byte}

theorem packA_eq_of_fields (hp : fieldP op = p) : packA p (fieldNNN op) = op := by
  rw [← hp, packA_fields]

theorem packXB_eq_of_fields (hp : fieldP op = p) (hnn : fieldNN op = nn) : packXB p (fieldX op) nn = op := by
  rw [← hp, ← hnn, packXB_fields]

theorem packXYN_eq_of_fields (hp : fieldP op = p) (hn : fieldN op = n) :
    packXYN p (fieldX op) (fieldY op) n = op := by
  rw [← hp, ← hn, packXYN_fields]

theorem encode_of_decodeGroup0 (hp : fieldP op = 0x0) (h : decodeGroup0 op = some i) : encode i = op := by
  unfold decodeGroup0 at h
  split at h <;> cases h <;> exact packXB_eq_of_fields hp ‹_›

theorem encode_of_decodeGroup8 (hp : fieldP op = 0x8) (h : decodeGroup8 op = some i) : encode i = op := by
  unfold decodeGroup8 at h
  split at h <;> cases h <;> exact packXYN_eq_of_fields hp ‹_›

theorem encode_of_decodeGroupE (hp : fieldP op = 0xE) (h : decodeGroupE op = some i) : encode i = op := by
  unfold decodeGroupE at h
  split at h <;> cases h <;> exact packXB_eq_of_fields hp ‹_›

theorem encode_of_decodeGroupF (hp : fieldP op = 0xF) (h : decodeGroupF op = some i) : encode i = op := by
  unfold decodeGroupF at h
  split at h <;> cases h <;> exact packXB_eq_of_fields hp ‹_›

/-- The decoder keeps every field of the word it reads, as an operand or in the choice of the instruction. -/
theorem encode_of_decodeWord (h : decodeWord op = some i) : encode i = op := by
  unfold decodeWord at h
  split at h
  case h_1 hp => exact encode_of_decodeGroup0 hp h
  case h_9 hp => exact encode_of_decodeGroup8 hp h
  case h_15 hp => exact encode_of_decodeGroupE hp h
  case h_16 => exact encode_of_decodeGroupF (by apply nib_eq_fifteen <;> assumption) h
  case h_2 hp | h_3 hp | h_11 hp | h_12 hp => cases h; exact packA_eq_of_fields hp
  case h_4 hp | h_5 hp | h_7 hp | h_8 hp | h_13 hp => cases h; exact packXB_eq_of_fields hp rfl
  case h_6 hp | h_10 hp | h_14 hp => cases h; exact packXYN_eq_of_fields hp rfl

end

/-! ## The rows of the opcode map -/

open Laws.TableRow in
/-- The family TableRow as one statement: a row's mask and match select the words of its own instructions. -/
theorem encode_and_mask : ∀ i : Instr, encode i &&& i.row.mask = i.row.bits
  | .cls u => cls u | .ret u => ret u | .jp nnn => jp nnn | .call nnn => call nnn
  | .seImm x nn => seImm x nn | .sneImm x nn => sneImm x nn | .seReg x y u => seReg x y u
  | .ldImm x nn => ldImm x nn | .addImm x nn => addImm x nn
  | .ldReg x y => ldReg x y | .orReg x y => orReg x y | .andReg x y => andReg x y | .xorReg x y => xorReg x y
  | .addReg x y => addReg x y | .subReg x y => subReg x y | .shr x u => shr x u | .subnReg x y => subnReg x y
  | .shl x u => shl x u | .sneReg x y u => sneReg x y u | .ldI nnn => ldI nnn | .jpV0 nnn => jpV0 nnn
  | .rnd x nn => rnd x nn | .drw x y n => drw x y n | .skp x => skp x | .sknp x => sknp x
  | .ldVxDt x => ldVxDt x | .ldVxK x => ldVxK x | .ldDtVx x => ldDtVx x | .ldStVx x => ldStVx x
  | .addI x => addI x | .ldF x => ldF x | .ldB x => ldB x | .storeRegs x => storeRegs x | .loadRegs x => loadRegs x

section

variable {op w : Word}

/-- Words that agree under the mask 0xF000 agree in P. -/
theorem fieldP_eq_of_mask (h : op &&& 0xF000 = w &&& 0xF000) : fieldP op = fieldP w := by
  rw [← packA_fields op, ← packA_fields w, packA_maskP, packA_maskP] at h
  simpa using congrArg fieldP h

/-- Words that agree under the mask 0xF00F agree in P and N. -/
theorem fieldPN_eq_of_mask (h : op &&& 0xF00F = w &&& 0xF00F) : fieldP op = fieldP w ∧ fieldN op = fieldN w := by
  rw [← packXYN_fields op, ← packXYN_fields w, packXYN_maskPN, packXYN_maskPN] at h
  exact ⟨by simpa using congrArg fieldP h, by simpa using congrArg fieldN h⟩

/-- Words that agree under the mask 0xF0FF agree in P and NN. -/
theorem fieldPNN_eq_of_mask (h : op &&& 0xF0FF = w &&& 0xF0FF) : fieldP op = fieldP w ∧ fieldNN op = fieldNN w := by
  rw [← packXB_fields op, ← packXB_fields w, packXB_maskPNN, packXB_maskPNN] at h
  exact ⟨by simpa using congrArg fieldP h, by simpa using congrArg fieldNN h⟩

/-- A row's mask keeps all the fields that the decoder dispatches on for that row (R73): a word that agrees with the
word of `i` under it decodes to an instruction of the same row. -/
theorem decodeWord_of_mask_eq {i : Instr} (h : op &&& i.row.mask = encode i &&& i.row.mask) :
    ∃ j, decodeWord op = some j ∧ j.row = i.row := by
  cases i with
  | jp | call | seImm | sneImm | seReg | ldImm | addImm | sneReg | ldI | jpV0 | rnd | drw =>
    have hp := fieldP_eq_of_mask h
    simp [decodeWord, hp, encode, Instr.row]
  | cls | ret =>
    obtain ⟨hp, hnn⟩ := fieldPNN_eq_of_mask h
    simp [decodeWord, decodeGroup0, hp, hnn, encode, Instr.row]
  | ldReg | orReg | andReg | xorReg | addReg | subReg | shr | subnReg | shl =>
    obtain ⟨hp, hn⟩ := fieldPN_eq_of_mask h
    simp [decodeWord, decodeGroup8, hp, hn, encode, Instr.row]
  | skp | sknp =>
    obtain ⟨hp, hnn⟩ := fieldPNN_eq_of_mask h
    simp [decodeWord, decodeGroupE, hp, hnn, encode, Instr.row]
  | ldVxDt | ldVxK | ldDtVx | ldStVx | addI | ldF | ldB | storeRegs | loadRegs =>
    obtain ⟨hp, hnn⟩ := fieldPNN_eq_of_mask h
    simp [decodeWord, decodeGroupF, hp, hnn, encode, Instr.row]

end

/-! ## The illegal space -/

section

variable (op : Word)

/-- Only the four groups with a second level of dispatch leave words undecoded (R73). -/
theorem decodeWord_eq_none_iff : decodeWord op = none ↔
    (fieldP op = 0x0 ∧ decodeGroup0 op = none) ∨ (fieldP op = 0x8 ∧ decodeGroup8 op = none) ∨
      (fieldP op = 0xE ∧ decodeGroupE op = none) ∨ (fieldP op = 0xF ∧ decodeGroupF op = none) := by
  unfold decodeWord
  split
  case h_16 =>
    have hp : fieldP op = 0xF := by apply nib_eq_fifteen <;> assumption
    simp [hp]
  all_goals simp [*]

theorem decodeGroup0_eq_none_iff : decodeGroup0 op = none ↔ fieldNN op ∉ [0xE0, 0xEE] := by
  unfold decodeGroup0
  split <;> simp_all

theorem decodeGroup8_eq_none_iff :
    decodeGroup8 op = none ↔ fieldN op ∉ [0x0, 0x1, 0x2, 0x3, 0x4, 0x5, 0x6, 0x7, 0xE] := by
  unfold decodeGroup8
  split <;> simp_all

theorem decodeGroupE_eq_none_iff : decodeGroupE op = none ↔ fieldNN op ∉ [0x9E, 0xA1] := by
  unfold decodeGroupE
  split <;> simp_all

theorem decodeGroupF_eq_none_iff :
    decodeGroupF op = none ↔ fieldNN op ∉ [0x07, 0x0A, 0x15, 0x18, 0x1E, 0x29, 0x33, 0x55, 0x65] := by
  unfold decodeGroupF
  split <;> simp_all

end

/-- The seven low nibbles of family P = 0x8 that stand for no instruction (R77, R80). -/
theorem nib_not_alu_iff (n : Nib) :
    n ∉ [0x0, 0x1, 0x2, 0x3, 0x4, 0x5, 0x6, 0x7, 0xE] ↔ n.toNat ∈ [0x8, 0x9, 0xA, 0xB, 0xC, 0xD, 0xF] := by
  revert n
  decide

/-! ## The statements -/

/-- Settles O1: the fields of a packed word are the ones it was packed from. -/
theorem decodingAnEncodedInstructionGivesItBack : Obligations.DecodingAnEncodedInstructionGivesItBack :=
  decodeWord_encode

/-- Settles O2: a word is the packing of its fields, and the decoder drops none of them. -/
theorem encodingADecodedWordGivesItBack : Obligations.EncodingADecodedWordGivesItBack :=
  fun _ _ => encode_of_decodeWord

/-- Settles O3: a row selects the words of its own instructions, and what it selects agrees with such a word in all
the fields of the dispatch. -/
theorem dispatchAgreesWithMaskAndMatch : Obligations.DispatchAgreesWithMaskAndMatch := by
  intro op i
  constructor
  · intro h
    exact decodeWord_of_mask_eq (h.trans (encode_and_mask i).symm)
  · rintro ⟨j, hj, hrow⟩
    rw [← hrow, ← encode_of_decodeWord hj, encode_and_mask]

/-- Settles O4: each group of the decoder leaves undecoded the keys it does not list, read as numbers. -/
theorem illegalSpaceIsExact : Obligations.IllegalSpaceIsExact := by
  intro op
  rw [decodeWord_eq_none_iff, decodeGroup0_eq_none_iff, decodeGroup8_eq_none_iff, decodeGroupE_eq_none_iff,
    decodeGroupF_eq_none_iff, nib_not_alu_iff, ← fieldP_toNat, ← fieldN_toNat, ← fieldNN_toNat]
  simp [BitVec.toNat_eq]

/-- Settles O6: the decoder, run on each of the eight words. -/
theorem sampleWordsDecode : Obligations.SampleWordsDecode := by
  unfold Obligations.SampleWordsDecode
  decide

end Sys2Proof

/-!
SUPPORT. The fetch-execute cycle (40_fetch_execute_cycle.md R100 to R109): a Tick runs the decoded instruction and
always answers, where PC goes, a RET after its CALL, and which instructions see KEYS and RND.
-/

namespace Sys2Proof.Machine

/-! ## The Tick and the step -/

/-- Two bytes are one instruction exactly where their word is (R52, R70). -/
theorem decode_pair {hi lo : Byte} {i : Instr} (h : decode [hi, lo] = .ok (i, [])) :
    decodeWord (wordOfBytes hi lo) = some i := by
  cases hd : decodeWord (wordOfBytes hi lo) with simp only [decode, hd] at h
  | none => cases h
  | some j =>
    cases h
    rfl

section

variable {s : State}

theorem step_tick {keys : BitVec 16} {rnd : Byte} (h : s.nextStrobe = .tick keys rnd) :
    step s = tick exec (s.consume.sample keys rnd) := by
  rw [step_eq, h]
  rfl

/-- A Tick on a core that is not halted runs the instruction that the word at PC decodes to (R100 to R104). -/
theorem tick_of_decodeWord {run : Instr → State → Result} {i : Instr} (hf : s.fault = none) (hp : s.pc.toNat ≤ 0xFFE)
    (hd : decodeWord (wordOfBytes (s.mem.get s.pc.toNat) (s.mem.get (s.pc.toNat + 1))) = some i) :
    tick run s = run i s.advance := by
  simp only [tick, hf, fetch_inside hp, hd]

end

/-- Settles O7: with the strobe used up and the inputs sampled, the core fetches, decodes and advances as it stands. -/
theorem stepRunsTheDecodedInstruction : Obligations.StepRunsTheDecodedInstruction := by
  intro s keys rnd i hs hf hp hd
  rw [step_tick hs]
  exact tick_of_decodeWord (s := s.consume.sample keys rnd) hf hp (decode_pair hd)

/-! ## CALL and RET -/

/-- Everything CALL can do to PC and the stack entries (R111, R223). -/
theorem execCall_cases (nnn : Addr) (s : State) :
    (s.sp.val < 16 ∧ ∃ t, execCall nnn s = .next t ∧ t.pc = zextAddr nnn ∧ t.sp.val = s.sp.val + 1 ∧
      t.entries = s.entries ++ [s.pc]) ∨
    (s.sp.val = 16 ∧ execCall nnn s = raiseIn .stackOverflow (.call nnn) s) := by
  rcases s.push_cases s.pc with ⟨hsp, hp⟩ | ⟨hsp, hp⟩ <;> rw [execCall, hp]
  · exact .inl ⟨hsp, _, rfl, rfl, rfl, take_stack_push s.stack s.pc hsp⟩
  · exact .inr ⟨hsp, rfl⟩

/-- Everything RET can do to PC and the stack entries (R112, R222). -/
theorem execRet_cases (u : Nib) (s : State) :
    (∃ t, execRet u s = .next t ∧ s.sp.val = t.sp.val + 1 ∧ s.entries = t.entries ++ [t.pc]) ∨
    (s.sp = 0 ∧ execRet u s = raiseIn .stackUnderflow (.ret u) s) := by
  rcases s.pop_cases with ⟨hsp, hp⟩ | ⟨n, hn, hsp, hp⟩ <;> rw [execRet, hp]
  · exact .inr ⟨hsp, rfl⟩
  · refine .inl ⟨_, rfl, hsp, ?_⟩
    rw [State.entries, hsp]
    exact take_stack_pop s.stack hn

/-- Settles O37: the RET splits off the newest of the entries that the CALL put together. -/
theorem callThenReturnComesBack : Obligations.CallThenReturnComesBack := by
  intro nnn u s t s' hroom hcall hsp hentries
  rcases execCall_cases nnn s with ⟨_, t₁, ht₁, _, hsp₁, hpush⟩ | ⟨hfull, _⟩
  · obtain rfl : t₁ = t := Host.Outcome.next.inj (ht₁.symm.trans hcall)
    rcases execRet_cases u s' with ⟨t', ht', hsp', hpop⟩ | ⟨hempty, _⟩
    · obtain ⟨hleft, hpc⟩ := List.append_inj' (hpop.symm.trans (hentries.trans hpush)) rfl
      refine ⟨t', ht', List.singleton_inj.mp hpc, Fin.ext ?_, hleft⟩
      rw [hsp] at hsp'
      omega
    · rw [← hsp, hempty] at hsp₁
      exact absurd hsp₁ (Nat.succ_ne_zero _).symm
  · exact absurd hroom (by omega)

/-! ## Every step answers -/

section

variable (s : State)

/-- A store answers a next state, a fatal condition included (R225). -/
theorem State.storeAtI_answers (i : Instr) (bs : List Byte) : ∃ t, s.storeAtI i bs = .next t := by
  unfold State.storeAtI
  split <;> exact ⟨_, rfl⟩

/-- Every instruction answers a next state, a fatal condition included (R107, R225). -/
theorem exec_answers (i : Instr) : ∃ t, exec i s = .next t := by
  cases i with
  | call nnn =>
    rcases execCall_cases nnn s with ⟨_, t, ht, _⟩ | ⟨_, ht⟩
    · exact ⟨t, ht⟩
    · exact ⟨_, ht⟩
  | ret u =>
    rcases execRet_cases u s with ⟨t, ht, _⟩ | ⟨_, ht⟩
    · exact ⟨t, ht⟩
    · exact ⟨_, ht⟩
  | drw x y n => simp only [exec, execDrw]; split <;> exact ⟨_, rfl⟩
  | ldVxK x => simp only [exec, execLdVxK]; split <;> exact ⟨_, rfl⟩
  | loadRegs x => simp only [exec, execLoadRegs]; split <;> exact ⟨_, rfl⟩
  | ldB | storeRegs => exact s.storeAtI_answers _ _
  | _ => exact ⟨_, rfl⟩

/-- A Tick answers a next state where its instruction does (R107, R225, R226). -/
theorem tick_answers {run : Instr → State → Result} (hrun : ∀ i s, ∃ t, run i s = .next t) :
    ∃ t, tick run s = .next t := by
  rcases tick_cases run s with ⟨_, h⟩ | ⟨_, _, h⟩ | ⟨_, _, _, _, ⟨_, h⟩ | ⟨i, _, h⟩⟩ <;> rw [h]
  · exact ⟨_, rfl⟩
  · exact ⟨_, rfl⟩
  · exact ⟨_, rfl⟩
  · exact hrun i _

end

/-- A Construction strobe over an image that does not fit is refused (R58, R260). -/
theorem step_construct_refused {s : State} {font : Vector Byte 80} {image : List Byte}
    (hs : s.nextStrobe = .construct font image) (hlen : 3584 < image.length) :
    step s = .refused (.imageTooLong image.length) := by
  rw [step_eq, hs]
  exact if_neg (Nat.not_le.mpr hlen)

/-- Settles O13: of the agents only Construction refuses, and only an image that is too long. -/
theorem everyStepAnswers : Obligations.EveryStepAnswers := by
  intro s
  cases hs : s.nextStrobe with
  | tick keys rnd =>
    rw [step_tick hs]
    exact .inl (tick_answers _ fun i s => exec_answers s i)
  | construct font image =>
    rcases Nat.lt_or_ge 3584 image.length with hlen | hlen
    · exact .inr ⟨font, image, rfl, hlen, step_construct_refused hs hlen⟩
    · exact .inl ⟨_, step_construct hs hlen⟩
  | timer60 | reset | snapshot | screenRead | stop =>
    rw [step_eq, hs]
    exact .inl ⟨_, rfl⟩

/-! ## Where PC goes -/

section

variable {s t : State}

/-- PC is 2 further where a skip moved it (R105). -/
theorem State.skipIf_pc_of_ne {c : Bool} (h : (s.skipIf c).pc ≠ s.pc) : (s.skipIf c).pc = s.pc + 2 := by
  cases c with
  | false => exact absurd rfl h
  | true => rfl

theorem zextAddr_toNat (nnn : Addr) : (zextAddr nnn).toNat = nnn.toNat :=
  BitVec.toNat_setWidth_of_le (by decide)

/-- NNN + V0 does not wrap (R113, decision D20). -/
theorem zextAddr_add_toNat (nnn : Addr) (b : Byte) :
    (zextAddr nnn + b.zeroExtend 16).toNat = nnn.toNat + b.toNat := by
  have hb : (b.zeroExtend 16).toNat = b.toNat := BitVec.toNat_setWidth_of_le (by decide)
  have hlt : (zextAddr nnn).toNat + (b.zeroExtend 16).toNat < 2 ^ 16 := by
    have := nnn.isLt
    have := b.isLt
    rw [zextAddr_toNat, hb]
    omega
  rw [BitVec.toNat_add_of_lt hlt, zextAddr_toNat, hb]

/-- LD Vx,K moves PC back onto itself exactly where no key is pressed (R192). -/
theorem execLdVxK_pc {x : Nib} (h : execLdVxK x s = .next t) : t.pc = s.pc ∨ t.pc = s.pc - 2 ∧ s.keys = 0 := by
  cases hk : lowestKey s.keys with rw [execLdVxK, hk] at h
  | none =>
    cases h
    exact .inr ⟨rfl, (lowestKey_none s.keys).mp hk⟩
  | some k =>
    cases h
    exact .inl rfl

theorem execDrw_pc {x y n : Nib} (h : execDrw x y n s = .next t) (ht : t.Safe) : t.pc = s.pc := by
  cases hr : s.mem.readBytes (s.ea 0) n.toNat with rw [execDrw, hr] at h
  | error a => exact absurd ht (not_safe_of_raiseIn h)
  | ok bs =>
    cases h
    rfl

theorem execLoadRegs_pc {x : Nib} (h : execLoadRegs x s = .next t) (ht : t.Safe) : t.pc = s.pc := by
  cases hr : s.mem.readBytes (s.ea 0) (x.toNat + 1) with rw [execLoadRegs, hr] at h
  | error a => exact absurd ht (not_safe_of_raiseIn h)
  | ok bs =>
    cases h
    rw [State.loadRegsFrom_eq]

theorem State.storeAtI_pc {i : Instr} {bs : List Byte} (h : s.storeAtI i bs = .next t) (ht : t.Safe) :
    t.pc = s.pc := by
  cases hw : s.mem.writeBytes (s.ea 0) bs with rw [State.storeAtI, hw] at h
  | error a => exact absurd ht (not_safe_of_raiseIn h)
  | ok m =>
    cases h
    rfl

/-- A CALL that completes goes to NNN (R111). -/
theorem execCall_pc {nnn : Addr} (h : execCall nnn s = .next t) (ht : t.Safe) : t.pc = zextAddr nnn := by
  rcases execCall_cases nnn s with ⟨_, t₁, ht₁, hpc, _⟩ | ⟨_, he⟩
  · obtain rfl : t₁ = t := Host.Outcome.next.inj (ht₁.symm.trans h)
    exact hpc
  · exact absurd ht (not_safe_of_raiseIn (he.symm.trans h))

/-- A RET that completes goes to the newest entry (R112). -/
theorem execRet_entries {u : Nib} (h : execRet u s = .next t) (ht : t.Safe) : s.entries = t.entries ++ [t.pc] := by
  rcases execRet_cases u s with ⟨t₁, ht₁, _, hpop⟩ | ⟨_, he⟩
  · obtain rfl : t₁ = t := Host.Outcome.next.inj (ht₁.symm.trans h)
    exact hpop
  · exact absurd ht (not_safe_of_raiseIn (he.symm.trans h))

end

/-- Settles O29: the skips, the key wait, the three jumps and RET each move PC as their row says; the others leave it
where the advance put it. -/
theorem pcFollowsTheEffectTable : Obligations.PcFollowsTheEffectTable := by
  intro i s t _ h ht hne
  cases i with
  | seImm x nn | sneImm x nn =>
    cases h
    exact .inl ⟨.inl ⟨x, nn, by simp⟩, State.skipIf_pc_of_ne hne⟩
  | seReg x y u | sneReg x y u =>
    cases h
    exact .inl ⟨.inr (.inl ⟨x, y, u, by simp⟩), State.skipIf_pc_of_ne hne⟩
  | skp x | sknp x =>
    cases h
    exact .inl ⟨.inr (.inr ⟨x, by simp⟩), State.skipIf_pc_of_ne hne⟩
  | ldVxK x => exact .inr (.inl ⟨⟨x, rfl⟩, (execLdVxK_pc h).resolve_left hne⟩)
  | jp nnn =>
    cases h
    exact .inr (.inr (.inl ⟨nnn, .inl rfl, zextAddr_toNat nnn⟩))
  | call nnn =>
    exact .inr (.inr (.inl ⟨nnn, .inr rfl, (congrArg BitVec.toNat (execCall_pc h ht)).trans (zextAddr_toNat nnn)⟩))
  | jpV0 nnn =>
    cases h
    exact .inr (.inr (.inr (.inl ⟨nnn, rfl, zextAddr_add_toNat nnn _⟩)))
  | ret u => exact .inr (.inr (.inr (.inr ⟨u, rfl, execRet_entries h ht⟩)))
  | drw => exact absurd (execDrw_pc h ht) hne
  | loadRegs => exact absurd (execLoadRegs_pc h ht) hne
  | ldB | storeRegs => exact absurd (State.storeAtI_pc h ht) hne
  | _ =>
    cases h
    exact absurd rfl hne

/-! ## KEYS and RND -/

/-- An update of the next state, where there is one. -/
def onNext (f : State → State) : Result → Result
  | .next t => .next (f t)
  | .fault r => .fault r
  | .refused r => .refused r

section

variable (s : State) (keys : BitVec 16) (rnd : Byte)

theorem State.sample_ea (k : Nat) : (s.sample keys rnd).ea k = s.ea k := rfl

theorem State.skipIf_sample (c : Bool) : (s.sample keys rnd).skipIf c = (s.skipIf c).sample keys rnd := by
  cases c <;> rfl

theorem State.loadRegsFrom_sample (k : Nat) (bs : List Byte) :
    (s.sample keys rnd).loadRegsFrom k bs = (s.loadRegsFrom k bs).sample keys rnd := by
  induction bs generalizing s k with
  | nil => rfl
  | cons b bs ih => exact ih { s with v := s.v.setIfInBounds k b } (k + 1)

theorem State.push_sample (w : Word) : (s.sample keys rnd).push w = (s.push w).map (·.sample keys rnd) := by
  rcases s.push_cases w with ⟨h, hp⟩ | ⟨h, hp⟩ <;> rw [hp]
  · exact dif_pos h
  · exact dif_neg (Nat.not_lt.mpr h.ge)

theorem State.pop_sample : (s.sample keys rnd).pop = s.pop.map fun p => (p.1, p.2.sample keys rnd) := by
  simp only [State.pop, State.sample_sp]
  split <;> rfl

theorem execCall_sample (nnn : Addr) :
    execCall nnn (s.sample keys rnd) = onNext (·.sample keys rnd) (execCall nnn s) := by
  rw [execCall, execCall, State.sample_pc, State.push_sample]
  cases s.push s.pc <;> rfl

theorem execRet_sample (u : Nib) :
    execRet u (s.sample keys rnd) = onNext (·.sample keys rnd) (execRet u s) := by
  rw [execRet, execRet, State.pop_sample]
  cases s.pop <;> rfl

theorem execDrw_sample (x y n : Nib) :
    execDrw x y n (s.sample keys rnd) = onNext (·.sample keys rnd) (execDrw x y n s) := by
  simp only [execDrw, State.sample_mem, State.sample_ea]
  cases s.mem.readBytes (s.ea 0) n.toNat <;> rfl

theorem State.storeAtI_sample (i : Instr) (bs : List Byte) :
    (s.sample keys rnd).storeAtI i bs = onNext (·.sample keys rnd) (s.storeAtI i bs) := by
  simp only [State.storeAtI, State.sample_mem, State.sample_ea]
  cases s.mem.writeBytes (s.ea 0) bs <;> rfl

theorem execLoadRegs_sample (x : Nib) :
    execLoadRegs x (s.sample keys rnd) = onNext (·.sample keys rnd) (execLoadRegs x s) := by
  simp only [execLoadRegs, State.sample_mem, State.sample_ea, State.loadRegsFrom_sample]
  cases s.mem.readBytes (s.ea 0) (x.toNat + 1) <;> rfl

/-- The key wait sees KEYS, so only RND is replaced. -/
theorem execLdVxK_sample (x : Nib) :
    execLdVxK x (s.sample s.keys rnd) = onNext (·.sample s.keys rnd) (execLdVxK x s) := by
  simp only [execLdVxK, State.sample_keys]
  cases lowestKey s.keys <;> rfl

/-- An instruction that uses no input runs the same under any KEYS and RND, and one that uses an input runs the same
where that input is the same (R108). A fatal outcome is included, since the model draws its free values by the counter
of steps (log 7); the statement below claims only FAULT of it. -/
theorem exec_sample {i : Instr} (hkeys : (∀ x, i ≠ .skp x ∧ i ≠ .sknp x ∧ i ≠ .ldVxK x) ∨ keys = s.keys)
    (hrnd : (∀ x nn, i ≠ .rnd x nn) ∨ rnd = s.rnd) :
    exec i (s.sample keys rnd) = onNext (·.sample keys rnd) (exec i s) := by
  cases i with
  | skp x =>
    obtain rfl := hkeys.resolve_left fun h => (h x).1 rfl
    exact congrArg _ (State.skipIf_sample s _ rnd _)
  | sknp x =>
    obtain rfl := hkeys.resolve_left fun h => (h x).2.1 rfl
    exact congrArg _ (State.skipIf_sample s _ rnd _)
  | ldVxK x =>
    obtain rfl := hkeys.resolve_left fun h => (h x).2.2 rfl
    exact execLdVxK_sample s rnd x
  | rnd x nn =>
    obtain rfl := hrnd.resolve_left fun h => h x nn rfl
    rfl
  | seImm | sneImm | seReg | sneReg => exact congrArg _ (State.skipIf_sample s keys rnd _)
  | call nnn => exact execCall_sample s keys rnd nnn
  | ret u => exact execRet_sample s keys rnd u
  | drw x y n => exact execDrw_sample s keys rnd x y n
  | ldB | storeRegs => exact State.storeAtI_sample s keys rnd _ _
  | loadRegs x => exact execLoadRegs_sample s keys rnd x
  | _ => rfl

end

/-- Settles O31: running an instruction and then replacing the inputs it does not use is the same as replacing them
first. -/
theorem inputsReachOnlyFourInstructions : Obligations.InputsReachOnlyFourInstructions := by
  intro i s t keys rnd h hkeys hrnd
  refine ⟨t.sample keys rnd, ?_, rfl, fun _ => rfl⟩
  exact (exec_sample s keys rnd hkeys hrnd).trans (congrArg _ h)

end Sys2Proof.Machine

/-!
SUPPORT. Jumps, CALL and RET (41_jump_call_return.md R110 to R113): what a CALL with room on the stack and a RET with
an entry on it leave unchanged, and when each raises.
-/

namespace Sys2Proof.Machine

section

variable {s t : State}

/-- A CALL with room on the stack writes the slot at SP, SP and PC only (R111). -/
theorem execCall_of_room (nnn : Addr) (h : s.sp.val < 16) :
    execCall nnn s = .next ({ s with
      stack := s.stack.set s.sp.val s.pc h
      sp := ⟨s.sp.val + 1, Nat.succ_lt_succ h⟩ }.setPc (zextAddr nnn)) := by
  rcases s.push_cases s.pc with ⟨_, hp⟩ | ⟨hfull, _⟩
  · rw [execCall, hp]
  · exact absurd h hfull.not_lt

/-- A CALL on a full stack takes StackOverflow (R223). -/
theorem execCall_of_full (nnn : Addr) (h : s.sp.val = 16) :
    execCall nnn s = raiseIn .stackOverflow (.call nnn) s := by
  rcases execCall_cases nnn s with ⟨hroom, _⟩ | ⟨_, he⟩
  · exact absurd h hroom.ne
  · exact he

/-- A RET with an entry on the stack writes SP and PC only (R112). -/
theorem execRet_frame {u : Nib} (hentry : 0 < s.sp.val) (h : execRet u s = .next t) :
    { t with pc := s.pc, sp := s.sp } = s := by
  rcases s.pop_cases with ⟨hempty, _⟩ | ⟨n, _, _, hp⟩
  · exact absurd (congrArg Fin.val hempty) hentry.ne'
  · rw [execRet, hp] at h
    cases h
    rfl

/-- A RET on an empty stack takes StackUnderflow (R222). -/
theorem execRet_of_empty (u : Nib) (h : s.sp.val = 0) :
    execRet u s = raiseIn .stackUnderflow (.ret u) s := by
  rcases execRet_cases u s with ⟨_, _, hsp, _⟩ | ⟨_, he⟩
  · exact absurd (hsp.symm.trans h) (Nat.succ_ne_zero _)
  · exact he

end

/-- Settles O34: with room, the push changes the slot at SP only; on a full stack the CALL raises. -/
theorem callPushesTheAdvancedPc : Obligations.CallPushesTheAdvancedPc := by
  intro nnn s
  refine ⟨packA_toNat 0x2 nnn, fun hroom => ?_, fun hfull => ?_⟩
  · exact ⟨_, execCall_of_room nnn hroom, rfl, Vector.getElem_set_self hroom, zextAddr_toNat nnn,
      fun k hk hne => Vector.getElem_set_ne hroom hk hne.symm, take_stack_push s.stack s.pc hroom, rfl⟩
  · rw [exec, execCall_of_full nnn hfull]
    exact raiseIn_raises _ _ s

/-- Settles O35: a RET splits the newest entry off into PC; on an empty stack it raises. -/
theorem returnPopsTheNewestEntry : Obligations.ReturnPopsTheNewestEntry := by
  intro u s
  refine ⟨?_, fun hentry => ?_, fun hempty => ?_⟩
  · have hword : (encode (.ret u)).toNat = 0 * 4096 + u.toNat * 256 + 0xEE := packXB_toNat 0x0 u 0xEE
    omega
  · rcases execRet_cases u s with ⟨t, ht, hsp, hpop⟩ | ⟨hempty, _⟩
    · exact ⟨t, ht, Nat.eq_sub_of_add_eq hsp.symm, hpop, execRet_frame hentry ht⟩
    · exact absurd (congrArg Fin.val hempty) hentry.ne'
  · rw [exec, execRet_of_empty u hempty]
    exact raiseIn_raises _ _ s

/-- Settles O33: JP overwrites the advanced PC with NNN. -/
theorem jumpGoesToNNN : Obligations.JumpGoesToNNN :=
  fun nnn _ => ⟨packA_toNat 0x1 nnn, _, rfl, zextAddr_toNat nnn, rfl⟩

/-- Settles O36: NNN + V0 fits a 16-bit PC. -/
theorem jumpV0AddsV0 : Obligations.JumpV0AddsV0 :=
  fun nnn s => ⟨packA_toNat 0xB nnn, _, rfl, zextAddr_add_toNat nnn (s.reg 0), rfl⟩

end Sys2Proof.Machine

/-!
SUPPORT. Conditional skips (42_conditional_skip.md R120 to R123): a skip moves PC at most, and by how much, said once
for the tests of equality and of difference.
-/

namespace Sys2Proof.Machine

section

variable (s : State)

/-- A skip changes PC at most (R105). -/
theorem State.skipIf_frame (c : Bool) : { s.skipIf c with pc := s.pc } = s := by
  cases c <;> rfl

/-- Where a skip leaves PC, its test read as the proposition it decides (R105). -/
theorem State.skipIf_pc_toNat {c : Bool} {p : Prop} [Decidable p] (h : c = true ↔ p) :
    (s.skipIf c).pc.toNat = if p then (s.pc.toNat + 2) % 65536 else s.pc.toNat := by
  by_cases hp : p
  · rw [if_pos hp, h.mpr hp]
    exact BitVec.toNat_add s.pc 2
  · rw [if_neg hp, Bool.eq_false_iff.mpr (mt h.mp hp)]
    rfl

/-- A skip on equal bytes (R120, R122). -/
theorem State.skipIf_beq_pc_toNat (a b : Byte) :
    (s.skipIf (a == b)).pc.toNat = if a.toNat = b.toNat then (s.pc.toNat + 2) % 65536 else s.pc.toNat :=
  s.skipIf_pc_toNat (beq_iff_eq.trans BitVec.toNat_inj.symm)

/-- A skip on different bytes (R121, R123). -/
theorem State.skipIf_bne_pc_toNat (a b : Byte) :
    (s.skipIf (a != b)).pc.toNat = if a.toNat = b.toNat then s.pc.toNat else (s.pc.toNat + 2) % 65536 :=
  (s.skipIf_pc_toNat (bne_iff_ne.trans BitVec.toNat_inj.symm.not)).trans (ite_not _ _ _)

end

/-- Settles O38: both forms are a skip on VX against NN. -/
theorem skipOnImmediate : Obligations.SkipOnImmediate := by
  intro x nn s
  have hword (p : Nib) : (packXB p x nn).toNat = 0x1000 * p.toNat + 0x100 * x.toNat + nn.toNat := by
    rw [packXB_toNat]
    omega
  exact ⟨hword 0x3, hword 0x4,
    ⟨_, rfl, s.skipIf_frame _, s.skipIf_beq_pc_toNat _ _⟩, ⟨_, rfl, s.skipIf_frame _, s.skipIf_bne_pc_toNat _ _⟩⟩

/-- Settles O39: both forms are a skip on VX against VY, and neither meaning reads the low nibble. -/
theorem skipOnRegisters : Obligations.SkipOnRegisters := by
  intro x y u s
  have hword (p : Nib) :
      (packXYN p x y u).toNat = 0x1000 * p.toNat + 0x100 * x.toNat + 0x10 * y.toNat + u.toNat := by
    rw [packXYN_toNat]
    omega
  exact ⟨hword 0x5, hword 0x9,
    ⟨_, rfl, s.skipIf_frame _, s.skipIf_beq_pc_toNat _ _⟩, ⟨_, rfl, s.skipIf_frame _, s.skipIf_bne_pc_toNat _ _⟩⟩

end Sys2Proof.Machine

/-!
SUPPORT. Immediate load and add (43_immediate.md R130, R131): what a register write leaves unchanged,
and a PXNN word as the sum of its hexadecimal places.
-/

namespace Sys2Proof.Machine

/-- A register write changes the registers only. -/
theorem State.setReg_frame (s : State) (x : Nib) (b : Byte) : { s.setReg x b with v := s.v } = s := rfl

/-- A PXNN word, each field times its place, in the order the obligations write it. -/
theorem packXB_toNat_places (p x : Nib) (nn : Byte) :
    (packXB p x nn).toNat = 0x1000 * p.toNat + 0x100 * x.toNat + nn.toNat := by
  rw [packXB_toNat]
  omega

/-- Settles O41: both forms write VX and nothing else, the add with the sum wrapped to a byte. -/
theorem immediateLoadAndAdd : Obligations.ImmediateLoadAndAdd := by
  intro x nn s
  have hsum : ((s.setReg x (s.reg x + nn)).reg x).toNat = ((s.reg x).toNat + nn.toNat) % 256 := by
    rw [State.reg_setReg_same]
    exact BitVec.toNat_add _ _
  exact ⟨packXB_toNat_places 0x6 x nn, packXB_toNat_places 0x7 x nn,
    ⟨_, rfl, s.reg_setReg_same x nn, fun _ => State.reg_setReg_other, s.setReg_frame x _⟩,
    ⟨_, rfl, hsum, fun _ => State.reg_setReg_other, s.setReg_frame x _⟩⟩

end Sys2Proof.Machine

/-!
SUPPORT. The register-to-register ALU (44_alu.md R140 to R150): what the common ending "result first, flag last" leaves
in every register, and each flag and each result as arithmetic.
-/

namespace Sys2Proof.Machine

/-! ## The common ending of the instructions that write VX and VF -/

section

variable {s : State} {x q : Nib} {r : Byte} {f : Bool}

/-- The flag is written last, so it is what VF holds even with X = F (R140, decision D10). -/
theorem State.reg_setRegFlag_flag : (s.setRegFlag x r f).reg 0xF = flagByte f :=
  State.reg_setReg_same _ 0xF _

/-- The result stays in VX where VX is not the flag register. -/
theorem State.reg_setRegFlag_dest (hx : x ≠ 0xF) : (s.setRegFlag x r f).reg x = r :=
  (State.reg_setReg_other hx).trans (State.reg_setReg_same s x r)

theorem State.reg_setRegFlag_other (hx : q ≠ x) (hF : q ≠ 0xF) : (s.setRegFlag x r f).reg q = s.reg q :=
  (State.reg_setReg_other hF).trans (State.reg_setReg_other hx)

/-- Writing a result and its flag changes the registers only. -/
theorem State.setRegFlag_frame : { s.setRegFlag x r f with v := s.v } = s := rfl

end

/-! ## The flags -/

/-- A decided condition as VF receives it. -/
theorem flagByte_decide_toNat (p : Prop) [Decidable p] : (flagByte (decide p)).toNat = if p then 1 else 0 := by
  simp only [flagByte_toNat, decide_eq_true_eq]

/-- A bit of a byte as VF receives it. -/
theorem flagByte_getLsbD_toNat (a : Byte) (k : Nat) : (flagByte (a.getLsbD k)).toNat = a.toNat / 2 ^ k % 2 := by
  have hflag (f : Bool) : (flagByte f).toNat = f.toNat := by cases f <;> rfl
  exact (hflag _).trans (Nat.toNat_testBit a.toNat k)

theorem flagByte_shiftedOutRight_toNat (a : Byte) : (flagByte (shiftedOutRight a)).toNat = a.toNat % 2 := by
  rw [shiftedOutRight, flagByte_getLsbD_toNat]
  omega

theorem flagByte_shiftedOutLeft_toNat (a : Byte) : (flagByte (shiftedOutLeft a)).toNat = a.toNat / 128 := by
  rw [shiftedOutLeft, flagByte_getLsbD_toNat]
  omega

/-! ## The results -/

/-- A byte difference is the integer difference modulo 256 (R146, R148). -/
theorem byte_sub_toNat (a b : Byte) : ((a - b).toNat : Int) = ((a.toNat : Int) - (b.toNat : Int)) % 256 := by
  rw [BitVec.toNat_sub]
  omega

theorem byte_ushiftRight_one_toNat (a : Byte) : (a >>> 1).toNat = a.toNat / 2 := by
  rw [BitVec.toNat_ushiftRight, Nat.shiftRight_one]

theorem byte_shiftLeft_one_toNat (a : Byte) : (a <<< 1).toNat = 2 * a.toNat % 256 := by
  rw [BitVec.toNat_shiftLeft, Nat.shiftLeft_eq, Nat.mul_comm]

/-- A subtraction into VX and its no-borrow flag, whichever operand is the minuend (R146, R148). -/
theorem State.setRegFlag_sub (s : State) (x : Nib) (a b : Byte) :
    ((s.setRegFlag x (a - b) (noBorrow a b)).reg 0xF).toNat = (if a.toNat ≥ b.toNat then 1 else 0) ∧
    (x ≠ 0xF → (((s.setRegFlag x (a - b) (noBorrow a b)).reg x).toNat : Int) = (a.toNat - b.toNat : Int) % 256) := by
  refine ⟨?_, fun hx => ?_⟩
  · rw [State.reg_setRegFlag_flag]
    exact flagByte_decide_toNat _
  · rw [State.reg_setRegFlag_dest hx]
    exact byte_sub_toNat a b

/-! ## The words -/

/-- A word of the family 8XYN, each field times its place, in the order the obligations write it. -/
theorem packXYN_eight_toNat (x y n : Nib) :
    (packXYN 0x8 x y n).toNat = 0x8000 + n.toNat + 0x100 * x.toNat + 0x10 * y.toNat := by
  rw [packXYN_toNat, show (0x8 : Nib).toNat = 8 from rfl]
  omega

/-! ## The statements -/

/-- Settles O43: the common ending, with the sum of two bytes and its carry. -/
theorem addSetsCarry : Obligations.AddSetsCarry := by
  intro x y s
  refine ⟨packXYN_eight_toNat x y 0x4, _, rfl, ?_, fun hx => ?_, fun _ => State.reg_setRegFlag_other,
    State.setRegFlag_frame⟩
  · rw [State.reg_setRegFlag_flag]
    exact flagByte_decide_toNat _
  · rw [State.reg_setRegFlag_dest hx]
    exact BitVec.toNat_add _ _

/-- Settles O44: SUB and SUBN are one subtraction with the operands exchanged. -/
theorem subtractSetsNoBorrow : Obligations.SubtractSetsNoBorrow := by
  intro x y s
  obtain ⟨hsubFlag, hsub⟩ := s.setRegFlag_sub x (s.reg x) (s.reg y)
  obtain ⟨hsubnFlag, hsubn⟩ := s.setRegFlag_sub x (s.reg y) (s.reg x)
  exact ⟨packXYN_eight_toNat x y 0x5, packXYN_eight_toNat x y 0x7,
    ⟨_, rfl, hsubFlag, hsub, fun _ => State.reg_setRegFlag_other, State.setRegFlag_frame⟩,
    ⟨_, rfl, hsubnFlag, hsubn, fun _ => State.reg_setRegFlag_other, State.setRegFlag_frame⟩⟩

/-- Settles O45: neither meaning reads Y, and the bit shifted out is the old byte's remainder or quotient. -/
theorem shiftsSetTheBitShiftedOut : Obligations.ShiftsSetTheBitShiftedOut := by
  intro x u s
  refine ⟨packXYN_eight_toNat x u 0x6, packXYN_eight_toNat x u 0xE,
    ⟨_, rfl, ?_, fun hx => ?_, fun _ => State.reg_setRegFlag_other, State.setRegFlag_frame⟩,
    ⟨_, rfl, ?_, fun hx => ?_, fun _ => State.reg_setRegFlag_other, State.setRegFlag_frame⟩⟩
  · rw [State.reg_setRegFlag_flag, flagByte_shiftedOutRight_toNat]
  · rw [State.reg_setRegFlag_dest hx, byte_ushiftRight_one_toNat]
  · rw [State.reg_setRegFlag_flag, flagByte_shiftedOutLeft_toNat]
  · rw [State.reg_setRegFlag_dest hx, byte_shiftLeft_one_toNat]

/-- Settles O42: each form writes VX and nothing else, the logic operations bit by bit. -/
theorem assignAndLogic : Obligations.AssignAndLogic := by
  intro x y s
  refine ⟨⟨packXYN_eight_toNat x y 0x0, packXYN_eight_toNat x y 0x1, packXYN_eight_toNat x y 0x2,
      packXYN_eight_toNat x y 0x3⟩,
    ⟨_, rfl, s.reg_setReg_same x _, fun _ => State.reg_setReg_other, s.setReg_frame x _⟩,
    ⟨_, rfl, fun k _ => ?_, fun _ => State.reg_setReg_other, s.setReg_frame x _⟩,
    ⟨_, rfl, fun k _ => ?_, fun _ => State.reg_setReg_other, s.setReg_frame x _⟩,
    ⟨_, rfl, fun k _ => ?_, fun _ => State.reg_setReg_other, s.setReg_frame x _⟩⟩
  · rw [State.reg_setReg_same, BitVec.getLsbD_or]
  · rw [State.reg_setReg_same, BitVec.getLsbD_and]
  · rw [State.reg_setReg_same, BitVec.getLsbD_xor, Bool.bne_eq_xor]

end Sys2Proof.Machine

/-!
SUPPORT. The index register (45_index.md R160, R161): the sum that ADD I,Vx stores, as arithmetic, and the words of the
group F.
-/

namespace Sys2Proof.Machine

/-- The sum ADD I,Vx stores wraps to 16 bits (R161). -/
theorem State.indexSum_toNat (s : State) (x : Nib) :
    (s.indexSum x).toNat = (s.i.toNat + (s.reg x).toNat) % 65536 := by
  have haddend : ((s.reg x).zeroExtend 16).toNat = (s.reg x).toNat := BitVec.toNat_setWidth_of_le (by decide)
  rw [State.indexSum, BitVec.toNat_add, haddend]

/-- A word of the group FXNN, each field times its place, in the order the obligations write it. -/
theorem packXB_fifteen_toNat (x : Nib) (nn : Byte) : (packXB 0xF x nn).toNat = 0xF000 + nn.toNat + 0x100 * x.toNat := by
  rw [packXB_toNat_places, show (0xF : Nib).toNat = 15 from rfl]
  omega

/-- Settles O48: the flag is decided on the sum already stored, and the addend is VX as it was before the flag. -/
theorem addIndexSetsOverflowFlag : Obligations.AddIndexSetsOverflowFlag := by
  intro x s
  refine ⟨packXB_fifteen_toNat x 0x1E, _, rfl, s.indexSum_toNat x, ?_, fun _ => State.reg_setReg_other, rfl⟩
  rw [State.reg_setFlag, if_pos rfl]
  exact flagByte_decide_toNat _

/-- Settles O46: I becomes NNN and nothing else is written. -/
theorem loadIndexLoadsNNN : Obligations.LoadIndexLoadsNNN :=
  fun nnn _ => ⟨packA_toNat 0xA nnn, _, rfl, zextAddr_toNat nnn, rfl⟩

end Sys2Proof.Machine

/-!
The random instruction (46_random.md R170).
-/

namespace Sys2Proof.Machine

/-- Settles O49: VX becomes the conjunction of the two bytes, which is taken bit by bit, and nothing else is written. -/
theorem randomIsMasked : Obligations.RandomIsMasked := by
  intro x nn s
  refine ⟨packXB_toNat_places 0xC x nn, _, rfl, fun k _ => ?_, fun _ => State.reg_setReg_other, s.setReg_frame x _⟩
  rw [State.reg_setReg_same, BitVec.getLsbD_and]

end Sys2Proof.Machine

/-!
SUPPORT. The display (47_display.md R180 to R182): what a DRW whose sprite lies inside memory draws, read off the
geometry of the sprite, when a DRW raises, and what CLS leaves.
-/

namespace Sys2Proof.Machine

/-! ## Pixels and flags -/

/-- A display is its pixels. -/
theorem display_ext {d d' : Display} (h : ∀ py px, pixel d py px = pixel d' py px) : d = d' :=
  Vector.ext fun py hy => Vector.ext fun px hx => h ⟨py, hy⟩ ⟨px, hx⟩

theorem pixel_blankDisplay (py : Fin 32) (px : Fin 64) : pixel blankDisplay py px = false := by
  simp only [pixel, blankDisplay, Vector.getElem_replicate]

theorem flagByte_eq_zero_or_one (f : Bool) : flagByte f = 0 ∨ flagByte f = 1 := by cases f <;> decide

theorem flagByte_eq_one_iff (f : Bool) : flagByte f = 1 ↔ f = true := by cases f <;> decide

/-- VF after a flag is written (R22). -/
theorem State.reg_setFlag_flag (s : State) (f : Bool) : (s.setFlag f).reg 0xF = flagByte f :=
  State.reg_setReg_same s 0xF _

/-! ## The sprite -/

/-- The sprite rows that `DRW Vx,Vy,n` reads where they all lie inside memory (R180). -/
def State.spriteRows (s : State) (n : Nib) : List Byte := (List.range' s.i.toNat n.toNat).map s.mem.get

/-- The sprite bits depend on memory, I, VX and VY only. -/
theorem spriteAt_congr {s s' : State} {x y : Nib} (n : Nib) (hmem : s'.mem = s.mem) (hi : s'.i = s.i)
    (hx : s'.reg x = s.reg x) (hy : s'.reg y = s.reg y) : spriteAt s' x y n = spriteAt s x y n := by
  funext py px
  simp only [spriteAt, hmem, hi, hx, hy]

section

variable (s : State) (x y n : Nib)

theorem State.spriteRows_length : (s.spriteRows n).length = n.toNat := by
  rw [State.spriteRows, List.length_map, List.length_range']

theorem State.spriteRows_getD {r : Nat} (h : r < n.toNat) :
    (s.spriteRows n).getD r 0 = s.mem.get (s.i.toNat + r) := by
  rw [List.getD_eq_getElem _ _ ((s.spriteRows_length n).symm ▸ h)]
  simp only [State.spriteRows, List.getElem_map, List.getElem_range', Nat.one_mul]

/-- The sprite bit on a cell as the row and the column of the cell inside the sprite give it. -/
theorem spriteAt_eq_rowOf_colOf (py : Fin 32) (px : Fin 64) :
    spriteAt s x y n py px =
      (decide (rowOf (s.reg y).toNat py < n.toNat) && (decide (colOf (s.reg x).toNat px < 8) &&
        spriteBit (s.mem.get (s.i.toNat + rowOf (s.reg y).toNat py)) (colOf (s.reg x).toNat px))) :=
  Bool.and_assoc _ _ _

/-- The drawing loops over the rows read flip exactly the cells with a 1 bit of the sprite on them (R180). -/
theorem drawRows_spriteRows_drawn (c : Canvas) :
    Drawn c (drawRows (s.reg x).toNat (s.reg y).toNat (s.spriteRows n) c) (spriteAt s x y n) := by
  have hlen := s.spriteRows_length n
  have hmax : (s.spriteRows n).length ≤ 32 := by
    have := n.isLt
    omega
  refine (drawRows_drawn _ _ c hmax).congr fun py px => ?_
  rw [spriteAt_eq_rowOf_colOf, hlen]
  by_cases hrow : rowOf (s.reg y).toNat py < n.toNat
  · rw [s.spriteRows_getD n hrow]
  · simp only [hrow, decide_false, Bool.false_and]

/-- Everything a DRW can do (R180, R224): with every sprite byte inside memory it leaves the canvas drawn, else it
takes AddressOutOfRange. -/
theorem execDrw_cases :
    ((n.toNat = 0 ∨ s.i.toNat + (n.toNat - 1) ≤ 0xFFF) ∧ ∃ c, Drawn ⟨s.disp, false, false⟩ c (spriteAt s x y n) ∧
      execDrw x y n s =
        .next ({ s with disp := c.disp, dirty := s.dirty || c.changed }.setFlag c.collision)) ∨
    ((0 < n.toNat ∧ 0xFFF < s.i.toNat + (n.toNat - 1)) ∧
      execDrw x y n s = raiseIn (.addressOutOfRange (firstOffending s.i.toNat)) (.drw x y n) s) := by
  have hread := s.mem.readBytes_eq (s.ea 0) n.toNat
  have hea : s.ea 0 = s.i.toNat := Nat.add_zero _
  split at hread
  next hin =>
    refine .inl ⟨by omega, _, drawRows_spriteRows_drawn s x y n _, ?_⟩
    rw [execDrw, hread]
    rfl
  next hout =>
    refine .inr ⟨by omega, ?_⟩
    rw [execDrw, hread, firstOffending_eq, hea]

end

/-! ## The statements -/

/-- Settles O50: a DRW either leaves the canvas with the sprite's cells flipped, or raises. -/
theorem drawXorsTheSprite : Obligations.DrawXorsTheSprite := by
  intro x y n s
  have hword : (encode (.drw x y n)).toNat = 13 * 4096 + x.toNat * 256 + y.toNat * 16 + n.toNat :=
    packXYN_toNat 0xD x y n
  rcases execDrw_cases s x y n with ⟨hin, c, hc, he⟩ | ⟨hout, he⟩
  · refine ⟨by omega, fun _ => ⟨_, he, hc.pixels, ?_, ?_, ?_, fun _ => State.reg_setReg_other, rfl⟩,
      fun _ _ => by omega⟩
    · rw [State.reg_setFlag_flag]
      exact flagByte_eq_zero_or_one _
    · rw [State.reg_setFlag_flag, flagByte_eq_one_iff, hc.collision]
      simp only [Bool.false_eq_true, false_or]
    · rw [State.setFlag_dirty, Bool.or_eq_true, hc.changed]
      simp only [Bool.false_eq_true, false_or]
  · refine ⟨by omega, fun _ => by omega, fun _ _ => ?_⟩
    rw [exec, he]
    exact raiseIn_raises _ _ s

/-- Settles O51: both draws XOR one and the same set of bits into the display. -/
theorem drawingTwiceRestoresTheDisplay : Obligations.DrawingTwiceRestoresTheDisplay := by
  intro x y n s t s' hin h hdisp hmem hi hx hy
  obtain ⟨_, hfirst, _⟩ := drawXorsTheSprite x y n s
  obtain ⟨_, hsecond, _⟩ := drawXorsTheSprite x y n s'
  obtain ⟨t₁, ht₁, hpix, _⟩ := hfirst hin
  obtain ⟨t', ht', hpix', _, hflag, _⟩ := hsecond (by rwa [hi])
  obtain rfl : t₁ = t := Host.Outcome.next.inj (ht₁.symm.trans h)
  refine ⟨t', ht', display_ext fun py px => ?_, hflag⟩
  calc pixel t'.disp py px
      = ((pixel s.disp py px != spriteAt s x y n py px) != spriteAt s x y n py px) := by
        rw [hpix', hdisp, hpix, spriteAt_congr n hmem hi hx hy]
    _ = pixel s.disp py px := by rw [Bool.bne_assoc, bne_self_eq_false, Bool.bne_false]

/-- Settles O52: the meaning writes the blank display and `dirty`, so the next flush presents it. -/
theorem clearBlanksTheDisplay : Obligations.ClearBlanksTheDisplay := by
  intro u s
  have hword : (encode (.cls u)).toNat = 0 * 4096 + u.toNat * 256 + 0xE0 := packXB_toNat 0x0 u 0xE0
  exact ⟨by omega, _, rfl, pixel_blankDisplay, rfl, rfl, rfl, rfl⟩

end Sys2Proof.Machine

/-!
SUPPORT. Fatal conditions and the step (60_exceptions.md R220 to R229, R264): which instructions raise what, the
branches of a Tick, and everything that a step of any agent can leave.
-/

namespace Sys2Proof.Machine

/-! ## Which instructions raise what -/

/-- The rows of the table of rule R220 that an instruction can raise: `RaisedBy s i kind` where the handler of `i` on
`s` takes the fatal condition `kind`. -/
inductive RaisedBy (s : State) : Instr → FaultKind → Prop where
  | call (nnn : Addr) (hsp : s.sp.val = 16) : RaisedBy s (.call nnn) .stackOverflow
  | ret (u : Nib) (hsp : s.sp.val = 0) : RaisedBy s (.ret u) .stackUnderflow
  | ldB (x : Nib) (hlast : 0xFFF < s.i.toNat + 2) :
      RaisedBy s (.ldB x) (.addressOutOfRange (firstOffending s.i.toNat))
  | storeRegs (x : Nib) (hlast : 0xFFF < s.i.toNat + x.toNat) :
      RaisedBy s (.storeRegs x) (.addressOutOfRange (firstOffending s.i.toNat))
  | loadRegs (x : Nib) (hlast : 0xFFF < s.i.toNat + x.toNat) :
      RaisedBy s (.loadRegs x) (.addressOutOfRange (firstOffending s.i.toNat))
  | drw (x y n : Nib) (hn : 0 < n.toNat) (hlast : 0xFFF < s.i.toNat + (n.toNat - 1)) :
      RaisedBy s (.drw x y n) (.addressOutOfRange (firstOffending s.i.toNat))

section

variable {s t : State}

/-- A RET with an entry on the stack pops the newest one into PC (R112). -/
theorem execRet_of_entry (u : Nib) {n : Nat} (hn : n < 16) (hsp : s.sp.val = n + 1) :
    execRet u s = .next ({ s with sp := ⟨n, Nat.lt_succ_of_lt hn⟩ }.setPc s.stack[n]) := by
  rcases s.pop_cases with ⟨hempty, _⟩ | ⟨m, hm, hspm, hp⟩
  · exact absurd (hsp.symm.trans (congrArg Fin.val hempty)) (Nat.succ_ne_zero n)
  · obtain rfl : m = n := Nat.succ.inj (hspm.symm.trans hsp)
    rw [execRet, hp]

/-- Everything a block load can do (R206, R224). -/
theorem execLoadRegs_cases (x : Nib) (s : State) :
    (s.i.toNat + x.toNat ≤ 0xFFF ∧ ∃ bs, s.mem.readBytes (s.ea 0) (x.toNat + 1) = .ok bs ∧
      execLoadRegs x s = .next (s.loadRegsFrom 0 bs)) ∨
    (0xFFF < s.i.toNat + x.toNat ∧
      execLoadRegs x s = raiseIn (.addressOutOfRange (firstOffending s.i.toNat)) (.loadRegs x) s) := by
  have hread := s.mem.readBytes_eq (s.ea 0) (x.toNat + 1)
  have hea : s.ea 0 = s.i.toNat := Nat.add_zero _
  split at hread
  next hin =>
    refine .inl ⟨by omega, _, hread, ?_⟩
    rw [execLoadRegs, hread]
  next hout =>
    refine .inr ⟨by omega, ?_⟩
    rw [execLoadRegs, hread, firstOffending_eq, hea]

/-- A store at I that leaves a halted core has a last address that does not exist, and raised as R224 says. -/
theorem State.storeAtI_raisedBy {i : Instr} {bs : List Byte} (hb : bs ≠ []) (hs : s.Safe)
    (h : s.storeAtI i bs = .next t) (ht : ¬ t.Safe) :
    4096 < s.i.toNat + bs.length ∧ raiseIn (.addressOutOfRange (firstOffending s.i.toNat)) i s = .next t := by
  rcases s.storeAtI_cases i hb with ⟨_, he⟩ | ⟨hlast, he⟩ <;> rw [he] at h
  · cases h
    exact absurd hs ht
  · rw [firstOffending_eq]
    exact ⟨hlast, h⟩

/-- An instruction that leaves a halted core has taken one of the listed fatal conditions (R220, R224). -/
theorem exec_raisedBy {i : Instr} (hs : s.Safe) (h : exec i s = .next t) (ht : ¬ t.Safe) :
    ∃ kind, RaisedBy s i kind ∧ raiseIn kind i s = .next t := by
  cases i with
  | call nnn =>
    rcases Nat.lt_or_ge s.sp.val 16 with hroom | hfull
    · cases (execCall_of_room nnn hroom).symm.trans h
      exact absurd hs ht
    · have hsp : s.sp.val = 16 := by omega
      exact ⟨_, .call nnn hsp, (execCall_of_full nnn hsp).symm.trans h⟩
  | ret u =>
    rcases s.pop_cases with ⟨hempty, _⟩ | ⟨n, hn, hsp, _⟩
    · have hsp : s.sp.val = 0 := congrArg Fin.val hempty
      exact ⟨_, .ret u hsp, (execRet_of_empty u hsp).symm.trans h⟩
    · cases (execRet_of_entry u hn hsp).symm.trans h
      exact absurd hs ht
  | ldB x =>
    have hlen := bcdDigits_length (s.reg x)
    obtain ⟨hlast, he⟩ := State.storeAtI_raisedBy (List.ne_nil_of_length_eq_add_one hlen) hs h ht
    exact ⟨_, .ldB x (by omega), he⟩
  | storeRegs x =>
    have hlen := s.regsUpTo_length x
    obtain ⟨hlast, he⟩ := State.storeAtI_raisedBy (List.ne_nil_of_length_eq_add_one hlen) hs h ht
    exact ⟨_, .storeRegs x (by omega), he⟩
  | loadRegs x =>
    rcases execLoadRegs_cases x s with ⟨_, bs, _, he⟩ | ⟨hlast, he⟩
    · cases he.symm.trans h
      rw [State.loadRegsFrom_eq] at ht
      exact absurd hs ht
    · exact ⟨_, .loadRegs x hlast, he.symm.trans h⟩
  | drw x y n =>
    rcases execDrw_cases s x y n with ⟨_, c, _, he⟩ | ⟨⟨hn, hlast⟩, he⟩
    · cases he.symm.trans h
      exact absurd hs ht
    · exact ⟨_, .drw x y n hn hlast, he.symm.trans h⟩
  | ldVxK x =>
    cases execLdVxK_completes h <;> exact absurd hs ht
  | seImm | sneImm | seReg | sneReg | skp | sknp =>
    cases h
    exact absurd ((s.skipIf_fault _).trans hs) ht
  | _ =>
    cases h
    exact absurd hs ht

/-- No instruction drives an output (R248, R249; log 3, log 7). -/
theorem exec_outputs {i : Instr} (hs : s.Safe) (h : exec i s = .next t) : t.outputs = s.outputs := by
  by_cases ht : t.Safe
  · cases exec_completes h ht <;> rfl
  · obtain ⟨_, _, hraise⟩ := exec_raisedBy hs h ht
    obtain ⟨_, _, _, _, _, houtputs, _⟩ := raise_spec hraise
    exact houtputs

end

/-- Settles O30: the table of the conditions an instruction raises, with the record that raising leaves. -/
theorem handlersRaiseOnlyTheListedConditions : Obligations.HandlersRaiseOnlyTheListedConditions := by
  intro i s t hs h ht
  obtain ⟨kind, hrow, hraise⟩ := exec_raisedBy hs h ht
  refine ⟨kind, (raise_spec hraise).1, ?_⟩
  cases hrow with
  | call nnn hsp => exact .inl ⟨rfl, hsp, nnn, rfl⟩
  | ret u hsp => exact .inr (.inl ⟨rfl, hsp, u, rfl⟩)
  | ldB x hlast => exact .inr (.inr ⟨rfl, .inl ⟨x, rfl, hlast⟩⟩)
  | storeRegs x hlast => exact .inr (.inr ⟨rfl, .inr (.inl ⟨x, .inl rfl, hlast⟩)⟩)
  | loadRegs x hlast => exact .inr (.inr ⟨rfl, .inr (.inl ⟨x, .inr rfl, hlast⟩)⟩)
  | drw x y n hn hlast => exact .inr (.inr ⟨rfl, .inr (.inr ⟨x, y, n, rfl, hn, hlast⟩)⟩)

/-! ## The branches of a Tick -/

section

variable {s : State} {run : Instr → State → Result}

theorem tick_of_halted (hf : s.fault ≠ none) : tick run s = .next s := by
  rcases tick_cases run s with ⟨_, h⟩ | ⟨h, _⟩ | ⟨h, _⟩
  · exact h
  · exact absurd h hf
  · exact absurd h hf

theorem tick_of_fetch_error {a : Nat} (hf : s.fault = none) (hfetch : fetch s = .error a) :
    tick run s = raise (.addressOutOfRange a) 0 s.pc s := by
  simp only [tick, hf, hfetch]

theorem tick_of_illegal {op : Word} (hf : s.fault = none) (hfetch : fetch s = .ok op) (hd : decodeWord op = none) :
    tick run s = raise .illegalOpcode op s.pc s.advance := by
  simp only [tick, hf, hfetch, hd]

/-- A fetch that leaves memory (R101, R224). -/
theorem fetch_outside (hp : 0xFFE < s.pc.toNat) : fetch s = .error (firstOffending s.pc.toNat) := by
  rw [fetch_eq, if_neg hp.not_ge, firstOffending_eq]

end

/-- Settles O9: the fetch fails, and the record names the instruction's address. -/
theorem fetchOutsideMemoryRaises : Obligations.FetchOutsideMemoryRaises := by
  intro s keys rnd hs hf hp
  rw [step_tick hs, tick_of_fetch_error (s := s.consume.sample keys rnd) hf (fetch_outside hp)]
  exact ⟨_, rfl, rfl⟩

/-- Settles O10: the fetch answers and the decode does not. -/
theorem illegalWordRaises : Obligations.IllegalWordRaises := by
  intro s keys rnd op hs hf hfetch hd
  rw [step_tick hs, tick_of_illegal (s := s.consume.sample keys rnd) hf hfetch hd]
  exact ⟨_, rfl, rfl⟩

/-- Settles O11: of what a Tick does before its fetch, only the model's own fields are written. -/
theorem tickOnHaltedCoreDoesNothing : Obligations.TickOnHaltedCoreDoesNothing := by
  intro s keys rnd hs hf
  rw [step_tick hs, tick_of_halted (s := s.consume.sample keys rnd) hf]
  exact ⟨_, rfl, rfl⟩

/-! ## Everything a step can leave -/

section

variable {s : State} {f : State → State}

theorem State.unlessHalted_of_safe (hf : s.fault = none) : s.unlessHalted f = f s := by
  simp only [State.unlessHalted, hf]

theorem State.unlessHalted_of_halted (hf : s.fault ≠ none) :
    s.unlessHalted f = { s.wreck with outputs := (Config.wreckAt s.draws).outputs } := by
  obtain ⟨r, hr⟩ := Option.ne_none_iff_exists'.mp hf
  simp only [State.unlessHalted, hr]

theorem step_timer60 (hs : s.nextStrobe = .timer60) : step s = .next (s.consume.unlessHalted State.timerStep) := by
  rw [step_eq, hs, runStrobe]

theorem step_reset (hs : s.nextStrobe = .reset) : step s = .next (s.consume.unlessHalted State.hostReset) := by
  rw [step_eq, hs, runStrobe]

theorem step_snapshot (hs : s.nextStrobe = .snapshot) :
    step s = .next (s.consume.unlessHalted State.readSnapshot) := by
  rw [step_eq, hs, runStrobe]

theorem step_screenRead (hs : s.nextStrobe = .screenRead) :
    step s = .next (s.consume.unlessHalted State.readScreen) := by
  rw [step_eq, hs, runStrobe]

theorem step_stop (hs : s.nextStrobe = .stop) : step s = .next s.consume := by
  rw [step_eq, hs, runStrobe]

/-- On a core that is not halted the agents of R226 do what is specified. -/
theorem step_of_running (hf : s.fault = none) (h : step s = .next (s.consume.unlessHalted f)) :
    step s = .next (f s.consume) :=
  h.trans (congrArg _ (State.unlessHalted_of_safe (s := s.consume) hf))

end

/-- The state an instruction sees: the strobe used up, the inputs sampled, PC advanced (R103, R108). -/
def State.atHandler (s : State) (keys : BitVec 16) (rnd : Byte) : State := (s.consume.sample keys rnd).advance

/-- `Stepped s e t`: the agent of the strobe `e` can take `s` to `t` in one step (table of rule R264), by cases on the
strobe, on whether the core is halted, and on the branches of a Tick. -/
inductive Stepped (s : State) : Strobe → State → Prop where
  | idleTick (keys : BitVec 16) (rnd : Byte) (hf : s.fault ≠ none) :
      Stepped s (.tick keys rnd) (s.consume.sample keys rnd)
  | fetchRaises (keys : BitVec 16) (rnd : Byte) {t : State} (hf : s.fault = none)
      (h : raise (.addressOutOfRange (firstOffending s.pc.toNat)) 0 s.pc (s.consume.sample keys rnd) = .next t) :
      Stepped s (.tick keys rnd) t
  | decodeRaises (keys : BitVec 16) (rnd : Byte) {op : Word} {t : State} (hf : s.fault = none)
      (hd : decodeWord op = none) (h : raise .illegalOpcode op s.pc (s.atHandler keys rnd) = .next t) :
      Stepped s (.tick keys rnd) t
  | instr (keys : BitVec 16) (rnd : Byte) {i : Instr} {t : State} (hf : s.fault = none) (hp : s.pc.toNat ≤ 0xFFE)
      (h : exec i (s.atHandler keys rnd) = .next t) : Stepped s (.tick keys rnd) t
  | timer60 (hf : s.fault = none) : Stepped s .timer60 s.consume.timerStep
  | reset (hf : s.fault = none) : Stepped s .reset s.consume.hostReset
  | snapshot (hf : s.fault = none) : Stepped s .snapshot s.consume.readSnapshot
  | screenRead (hf : s.fault = none) : Stepped s .screenRead s.consume.readScreen
  | haltedAgent {e : Strobe} (he : e = .timer60 ∨ e = .reset ∨ e = .snapshot ∨ e = .screenRead)
      (hf : s.fault ≠ none) :
      Stepped s e { s.consume.wreck with outputs := (Config.wreckAt s.consume.draws).outputs }
  | construct (font : Vector Byte 80) {image : List Byte} (hlen : image.length ≤ 3584) :
      Stepped s (.construct font image) { State.reset with
        mem := constructedMemory font image
        keys := s.keys, rnd := s.rnd, pending := s.pending.tail, draws := s.draws + 1 }
  | stop : Stepped s .stop s.consume

section

variable {s t : State}

/-- Everything a Tick's step can leave. -/
theorem stepped_of_tick {keys : BitVec 16} {rnd : Byte} (h : tick exec (s.consume.sample keys rnd) = .next t) :
    Stepped s (.tick keys rnd) t := by
  rcases tick_cases exec (s.consume.sample keys rnd) with
    ⟨hf, he⟩ | ⟨hf, _, he⟩ | ⟨hf, hp, op, _, ⟨hd, he⟩ | ⟨i, _, he⟩⟩ <;> rw [he] at h
  · cases h
    exact .idleTick keys rnd hf
  · rw [← firstOffending_eq] at h
    exact .fetchRaises keys rnd hf h
  · exact .decodeRaises keys rnd hf hd h
  · exact .instr keys rnd hf hp h

/-- Everything that TimerStep, reset() and the debug reads can leave. -/
theorem stepped_of_unlessHalted {e : Strobe} {f : State → State}
    (he : e = .timer60 ∨ e = .reset ∨ e = .snapshot ∨ e = .screenRead)
    (hrunning : s.fault = none → Stepped s e (f s.consume)) : Stepped s e (s.consume.unlessHalted f) := by
  by_cases hf : s.fault = none
  · rw [State.unlessHalted_of_safe (s := s.consume) hf]
    exact hrunning hf
  · rw [State.unlessHalted_of_halted (s := s.consume) hf]
    exact .haltedAgent he hf

/-- Everything a step can leave (R264). -/
theorem stepped_of_step (h : step s = .next t) : Stepped s s.nextStrobe t := by
  cases hs : s.nextStrobe with
  | tick keys rnd => exact stepped_of_tick ((step_tick hs).symm.trans h)
  | timer60 =>
    cases (step_timer60 hs).symm.trans h
    exact stepped_of_unlessHalted (.inl rfl) .timer60
  | reset =>
    cases (step_reset hs).symm.trans h
    exact stepped_of_unlessHalted (.inr (.inl rfl)) .reset
  | construct font image =>
    rcases Nat.lt_or_ge 3584 image.length with hlen | hlen
    · cases (step_construct_refused hs hlen).symm.trans h
    · cases (step_construct hs hlen).symm.trans h
      exact .construct font hlen
  | snapshot =>
    cases (step_snapshot hs).symm.trans h
    exact stepped_of_unlessHalted (.inr (.inr (.inl rfl))) .snapshot
  | screenRead =>
    cases (step_screenRead hs).symm.trans h
    exact stepped_of_unlessHalted (.inr (.inr (.inr rfl))) .screenRead
  | stop =>
    cases (step_stop hs).symm.trans h
    exact .stop

/-- A Tick on a core that is not halted drives no output (R248, R249; log 3, log 7). -/
theorem Stepped.outputs_of_tick {keys : BitVec 16} {rnd : Byte} (hf : s.fault = none)
    (h : Stepped s (.tick keys rnd) t) : t.outputs = .quiet := by
  cases h with
  | idleTick _ _ hf' => exact absurd hf hf'
  | fetchRaises _ _ _ hraise | decodeRaises _ _ _ _ hraise =>
    obtain ⟨_, _, _, _, _, houtputs, _⟩ := raise_spec hraise
    exact houtputs
  | instr _ _ _ _ hexec => exact exec_outputs (s := s.atHandler keys rnd) hf hexec
  | haltedAgent _ hf' => exact absurd hf hf'

/-- On a core that is not halted no agent but TimerStep drives BEEP (R243, R249). -/
theorem Stepped.beep_of_ne_timer60 {e : Strobe} (hf : s.fault = none) (he : e ≠ .timer60) (h : Stepped s e t) :
    t.outputs.beep = false := by
  cases e with
  | tick keys rnd => exact congrArg Outputs.beep (h.outputs_of_tick hf)
  | timer60 => exact absurd rfl he
  | reset | construct | snapshot | screenRead | stop =>
    cases h with
    | haltedAgent _ hf' => exact absurd hf hf'
    | _ => rfl

end

/-- Settles O12: on a halted core every agent but Construction leaves FAULT alone. -/
theorem onlyConstructionClearsFault : Obligations.OnlyConstructionClearsFault := by
  intro s t hf h
  have hstepped := stepped_of_step h
  generalize s.nextStrobe = e at hstepped ⊢
  cases hstepped with
  | idleTick | haltedAgent | stop => exact .inl rfl
  | construct font => exact .inr ⟨font, _, rfl, rfl⟩
  | fetchRaises _ _ hf' | decodeRaises _ _ hf' | instr _ _ hf' => exact absurd hf' hf
  | timer60 hf' | reset hf' | snapshot hf' | screenRead hf' => exact absurd hf' hf

/-- Settles O15: every step starts with quiet outputs, and what TimerStep tests for BEEP is the ST it leaves. -/
theorem onlyTimerStepBeeps : Obligations.OnlyTimerStepBeeps := by
  intro s t hf h
  have hstepped := stepped_of_step h
  refine ⟨fun hs => ?_, fun hs => hstepped.beep_of_ne_timer60 hf hs, fun keys rnd hs => ?_⟩
  · cases (step_of_running hf (step_timer60 hs)).symm.trans h
    exact decide_eq_true_iff
  · rw [hs] at hstepped
    exact hstepped.outputs_of_tick hf

/-! ## TimerStep, reset() and the debug reads on a core that is not halted -/

/-- A decrement is clamped at 0 (R241). -/
theorem decrement_toNat (b : Byte) : (decrement b).toNat = b.toNat - 1 := by
  unfold decrement
  split
  next h => rw [h]; rfl
  next h => bv_omega

/-- Settles O14: both timers are decremented, and the frame is the display exactly where `dirty` was set. -/
theorem timerStepCountsDownAndFlushes : Obligations.TimerStepCountsDownAndFlushes := by
  intro s hs hf
  exact ⟨_, step_of_running hf (step_timer60 hs), decrement_toNat s.dt, decrement_toNat s.st, rfl,
    fun hdirty => if_pos hdirty, fun hdirty => if_neg (Bool.eq_false_iff.mp hdirty), rfl, rfl, rfl⟩

/-- Settles O16: reset() writes the listed registers and nothing else of the spec's state. -/
theorem hostResetRestoresRegistersOnly : Obligations.HostResetRestoresRegistersOnly := by
  intro s hs hf
  exact ⟨_, step_of_running hf (step_reset hs), fun r => Vector.getElem_replicate r.isLt, rfl, rfl, rfl, rfl, rfl, rfl,
    rfl, rfl, rfl, rfl⟩

/-- Settles O18: each debug read writes its own read port only. -/
theorem debugReadsChangeNothing : Obligations.DebugReadsChangeNothing := by
  intro s hf
  exact ⟨fun hs => ⟨_, step_of_running hf (step_snapshot hs), rfl, rfl⟩,
    fun hs => ⟨_, step_of_running hf (step_screenRead hs), rfl, rfl⟩, fun hs => ⟨_, step_stop hs, rfl⟩⟩

end Sys2Proof.Machine

/-!
SUPPORT. The two invariants of the step (20_memory.md, table of rule R220; R103, R111, R113): memory canonical and FAULT
lawful, and PC and the return addresses bounded on a core that is not halted.
-/

namespace Sys2Proof.Machine

/-! ## Records that the table of rule R220 allows -/

theorem lt_firstOffending (a : Nat) : 0xFFF < firstOffending a := by
  unfold firstOffending
  split <;> omega

theorem wf_illegalOpcode {op : Word} (addr : Word) (hd : decodeWord op = none) :
    (FaultRecord.mk .illegalOpcode op addr).wf = true :=
  Option.isNone_iff_eq_none.mpr hd

/-- An AddressOutOfRange record of a fetch or of one of the four data-memory instructions (R224). -/
theorem wf_addressOutOfRange {op : Word} (a : Nat) (addr : Word)
    (hop : op = 0 ∨ op &&& 0xF000 = 0xD000 ∨ op &&& 0xF0FF = 0xF033 ∨ op &&& 0xF0FF = 0xF055 ∨
      op &&& 0xF0FF = 0xF065) :
    (FaultRecord.mk (.addressOutOfRange (firstOffending a)) op addr).wf = true := by
  simp only [FaultRecord.wf, Bool.and_eq_true, Bool.or_eq_true, decide_eq_true_eq, beq_iff_eq, or_assoc]
  exact ⟨lt_firstOffending a, hop⟩

/-- What an instruction raises is recorded lawfully: its word is in its own row (R74, R220). -/
theorem RaisedBy.record_wf {s : State} {i : Instr} {kind : FaultKind} (h : RaisedBy s i kind) (addr : Word) :
    (FaultRecord.mk kind (encode i) addr).wf = true := by
  cases h with
  | call nnn => exact beq_iff_eq.mpr (Laws.TableRow.call nnn)
  | ret u => exact beq_iff_eq.mpr (Laws.TableRow.ret u)
  | ldB x => exact wf_addressOutOfRange _ _ (.inr (.inr (.inl (Laws.TableRow.ldB x))))
  | storeRegs x => exact wf_addressOutOfRange _ _ (.inr (.inr (.inr (.inl (Laws.TableRow.storeRegs x)))))
  | loadRegs x => exact wf_addressOutOfRange _ _ (.inr (.inr (.inr (.inr (Laws.TableRow.loadRegs x)))))
  | drw x y n => exact wf_addressOutOfRange _ _ (.inr (.inl (Laws.TableRow.drw x y n)))

/-! ## Memory canonical and FAULT lawful -/

section

variable {s t : State}

/-- Raising keeps the invariant where the record is lawful, whatever becomes of the rest (R228). -/
theorem raise_inv {kind : FaultKind} {op addr : Word} (hm : s.mem.wf = true)
    (hr : (FaultRecord.mk kind op addr).wf = true) (h : raise kind op addr s = .next t) : t.Inv := by
  obtain ⟨hfault, hmem, _⟩ := raise_spec h
  refine ⟨hmem hm, fun r ht => ?_⟩
  obtain rfl := Option.some.inj (hfault.symm.trans ht)
  exact hr

theorem State.storeAtI_mem_wf {i : Instr} {bs : List Byte} (hb : bs ≠ []) (hm : s.mem.wf = true)
    (h : s.storeAtI i bs = .next t) : t.mem.wf = true := by
  rcases s.storeAtI_cases i hb with ⟨hend, he⟩ | ⟨_, he⟩ <;> rw [he] at h
  · cases h
    exact Memory.fill_wf hm hend
  · exact (raise_spec h).2.1 hm

/-- An instruction that completes keeps memory canonical: only the two stores write it. -/
theorem exec_mem_wf {i : Instr} (hm : s.mem.wf = true) (h : exec i s = .next t) (ht : t.Safe) :
    t.mem.wf = true := by
  cases exec_completes h ht with
  | store hi m =>
    rcases hi with rfl | rfl
    · exact State.storeAtI_mem_wf (List.ne_nil_of_length_eq_add_one (bcdDigits_length _)) hm h
    · exact State.storeAtI_mem_wf (List.ne_nil_of_length_eq_add_one (s.regsUpTo_length _)) hm h
  | _ => exact hm

/-- Every instruction keeps the invariant, also where it takes a fatal condition. -/
theorem exec_inv {i : Instr} (hs : s.Safe) (hm : s.mem.wf = true) (h : exec i s = .next t) : t.Inv := by
  by_cases ht : t.Safe
  · exact ⟨exec_mem_wf hm h ht, fun r hr => nomatch ht.symm.trans hr⟩
  · obtain ⟨kind, hrow, hraise⟩ := exec_raisedBy hs h ht
    exact raise_inv hm (hrow.record_wf _) hraise

end

/-- Settles O20: nothing is listed and no fatal condition has been raised. -/
theorem canonicalFormHoldsAtReset : Obligations.CanonicalFormHoldsAtReset := ⟨rfl, nofun⟩

/-- Settles O21: over everything a step can leave, memory is kept, stored to, built or wrecked in its canonical form,
and FAULT is kept, cleared or set to a record of the table. -/
theorem everyStepKeepsCanonicalForm : Obligations.EveryStepKeepsCanonicalForm := by
  intro s t hinv h
  obtain ⟨hm, hr⟩ := hinv
  have hstepped := stepped_of_step h
  generalize s.nextStrobe = e at hstepped
  cases hstepped with
  | fetchRaises keys rnd _ hraise =>
    exact raise_inv (s := s.consume.sample keys rnd) hm (wf_addressOutOfRange _ _ (.inl rfl)) hraise
  | decodeRaises keys rnd _ hd hraise =>
    exact raise_inv (s := s.atHandler keys rnd) hm (wf_illegalOpcode _ hd) hraise
  | instr keys rnd hf _ hexec => exact exec_inv (s := s.atHandler keys rnd) hf hm hexec
  | haltedAgent => exact ⟨Memory.setCells_wf hm, hr⟩
  | construct font hlen => exact ⟨constructedMemory_wf font hlen, nofun⟩
  | _ => exact ⟨hm, hr⟩

/-! ## PC and the return addresses -/

section

variable {s t : State}

/-- A step that leaves a halted core bounds nothing. -/
theorem State.PcInv.of_raise {kind : FaultKind} {op addr : Word} (h : raise kind op addr s = .next t) : t.PcInv :=
  fun ht => nomatch (raise_spec h).1.symm.trans ht

/-- At the entry point with an empty stack there is no return address to bound (R262). -/
theorem State.PcInv.of_entry_point (hpc : s.pc = 0x200) (hsp : s.sp = 0) : s.PcInv := by
  refine fun _ => ⟨by rw [hpc]; decide, fun w hw => ?_⟩
  rw [State.entries, hsp] at hw
  exact absurd hw List.not_mem_nil

/-- The entries in use after an instruction that completes are old ones, or the advanced PC that a CALL pushed. -/
theorem mem_entries_of_exec {i : Instr} {w : Word} (h : exec i s = .next t) (ht : t.Safe) (hw : w ∈ t.entries) :
    w ∈ s.entries ∨ w = s.pc := by
  cases exec_completes h ht with
  | call nnn hsp =>
    have hpush := take_stack_push s.stack s.pc hsp
    exact (List.mem_append.mp (hpush ▸ hw)).imp_right List.mem_singleton.mp
  | ret u hn hsp =>
    have hpop := take_stack_pop s.stack hn
    rw [State.entries, hsp, hpop]
    exact .inl (List.mem_append_left _ hw)
  | _ => exact .inl hw

/-- Where PC stands after an instruction that completes, from a PC0 inside memory and bounded return addresses. -/
theorem exec_pc_le {i : Instr} (hs : s.Safe) (hpos : 2 ≤ s.pc.toNat) (hpc : s.pc.toNat ≤ 0x1000)
    (hret : ∀ w ∈ s.entries, w.toNat ≤ 0x1000) (h : exec i s = .next t) (ht : t.Safe) : t.pc.toNat ≤ 0x10FE := by
  by_cases hne : t.pc = s.pc
  · rw [hne]
    omega
  · rcases pcFollowsTheEffectTable i s t hs h ht hne with
      ⟨_, hskip⟩ | ⟨_, hwait, _⟩ | ⟨nnn, _, hjump⟩ | ⟨nnn, _, hjump⟩ | ⟨_, _, hpop⟩
    · rw [hskip]
      bv_omega
    · rw [hwait]
      bv_omega
    · have := nnn.isLt
      omega
    · have := nnn.isLt
      have := (s.reg 0).isLt
      omega
    · have := hret t.pc (hpop ▸ List.mem_append_right _ (List.mem_singleton_self t.pc))
      omega

end

/-- Settles O22: PC is 0x200 and the stack is empty. -/
theorem pcBoundHoldsAtReset : Obligations.PcBoundHoldsAtReset := State.PcInv.of_entry_point rfl rfl

/-- Settles O23: an instruction is fetched at 0xFFE at most, so the advanced PC and with it the address a CALL pushes is
0x1000 at most; the agents keep PC and the stack, or leave PC at 0x200 and an empty stack. -/
theorem everyStepKeepsPcBound : Obligations.EveryStepKeepsPcBound := by
  intro s t hinv h
  have hstepped := stepped_of_step h
  generalize s.nextStrobe = e at hstepped
  cases hstepped with
  | fetchRaises _ _ _ hraise | decodeRaises _ _ _ _ hraise => exact .of_raise hraise
  | @instr keys rnd i _ hf hp hexec =>
    obtain ⟨_, hret⟩ := hinv hf
    have hpc : (s.atHandler keys rnd).pc.toNat = s.pc.toNat + 2 :=
      BitVec.toNat_add_of_lt (y := 2) (show s.pc.toNat + 2 < 65536 by omega)
    refine fun ht => ⟨exec_pc_le (s := s.atHandler keys rnd) hf ?_ ?_ hret hexec ht, fun w hw => ?_⟩
    · omega
    · omega
    · rcases mem_entries_of_exec hexec ht hw with hold | rfl
      · exact hret w hold
      · omega
  | reset | construct => exact .of_entry_point rfl rfl
  | haltedAgent _ hf => exact fun ht => absurd ht hf
  | _ => exact hinv

end Sys2Proof.Machine

/-!
SUPPORT. The keypad (48_keypad.md R190 to R192): what counts as pressed, and what the key wait does.
-/

namespace Sys2Proof.Machine

/-- A value is pressed exactly where it is a key code and that key is down (R190, decision D16). -/
theorem keyPressed_iff (keys : BitVec 16) (b : Byte) :
    keyPressed keys b = true ↔ b.toNat < 16 ∧ keys.getLsbD b.toNat = true :=
  ⟨fun h => ⟨BitVec.lt_of_getLsbD h, h⟩, And.right⟩

theorem not_keyPressed_iff (keys : BitVec 16) (b : Byte) :
    (!keyPressed keys b) = true ↔ ¬ (b.toNat < 16 ∧ keys.getLsbD b.toNat = true) := by
  rw [Bool.not_eq_true', Bool.eq_false_iff, ne_eq, keyPressed_iff]

section

variable {s : State} {x : Nib}

/-- With no key pressed the key wait is taken again (R192). -/
theorem execLdVxK_of_no_key (h : s.keys = 0) : execLdVxK x s = .next (s.setPc (s.pc - 2)) := by
  rw [execLdVxK, (lowestKey_none s.keys).mpr h, State.pc0]

/-- With a key pressed the key wait loads the code found (R192). -/
theorem execLdVxK_of_key (h : s.keys ≠ 0) :
    ∃ b, lowestKey s.keys = some b ∧ execLdVxK x s = .next (s.setReg x b) := by
  obtain ⟨b, hb⟩ := Option.ne_none_iff_exists'.mp (mt (lowestKey_none s.keys).mp h)
  refine ⟨b, hb, ?_⟩
  rw [execLdVxK, hb]

end

/-- Settles O40: both forms are a skip on whether VX is pressed. -/
theorem skipOnKey : Obligations.SkipOnKey := by
  intro x s
  have hword (nn : Byte) : (packXB 0xE x nn).toNat = 0xE000 + nn.toNat + 0x100 * x.toNat := by
    rw [packXB_toNat_places, show (0xE : Nib).toNat = 14 from rfl]
    omega
  exact ⟨hword 0x9E, hword 0xA1, ⟨_, rfl, s.skipIf_frame _, s.skipIf_pc_toNat (keyPressed_iff _ _)⟩,
    ⟨_, rfl, s.skipIf_frame _, (s.skipIf_pc_toNat (not_keyPressed_iff _ _)).trans (ite_not _ _ _)⟩⟩

/-- Settles O53: the key wait is a jump to itself, or a register write with the lowest key. -/
theorem keyWaitRetriesOrLoads : Obligations.KeyWaitRetriesOrLoads := by
  intro x s
  refine ⟨packXB_fifteen_toNat x 0x0A, fun hnone => ⟨_, execLdVxK_of_no_key hnone, rfl, rfl⟩, fun hsome => ?_⟩
  obtain ⟨b, hb, he⟩ := execLdVxK_of_key (x := x) hsome
  obtain ⟨hlt, hdown, hlowest⟩ := lowestKey_some hb
  refine ⟨_, he, ?_, ?_, ?_, fun _ => State.reg_setReg_other, s.setReg_frame x b⟩ <;> rw [State.reg_setReg_same]
  · exact hlt
  · exact hdown
  · exact hlowest

end Sys2Proof.Machine

/-!
SUPPORT. Timers, BCD, font index and register blocks (49_timer_bcd_font_block.md R200 to R207): a store and a load at I,
each where its last address exists and where it does not.
-/

namespace Sys2Proof.Machine

/-- VX in full times five, from the font's base, fits I (R204, decision D14). -/
theorem glyphAddress_toNat (b : Byte) : (glyphAddress b).toNat = 0x050 + b.toNat * 5 := by
  have := b.isLt
  exact Nat.mod_eq_of_lt (show 0x050 + b.toNat * 5 < 65536 by omega)

/-- The byte read at each address (R56). -/
theorem Memory.readBytes_getD {m : Memory} {a n k : Nat} {bs : List Byte} {d : Byte} (h : m.readBytes a n = .ok bs)
    (hk : k < n) : bs.getD k d = m.get (a + k) := by
  have hlen := Memory.readBytes_length h
  rw [Memory.readBytes_eq] at h
  split at h
  · cases h
    rw [List.getD_eq_getElem _ _ (hlen.symm ▸ hk), List.getElem_map, List.getElem_range', Nat.one_mul]
  · cases h

section

variable {s : State}

/-- A store of n + 1 bytes at I whose last address exists writes them there, and memory only (R56, R207). -/
theorem State.storeAtI_of_room {bs : List Byte} {n : Nat} (i : Instr) (hlen : bs.length = n + 1)
    (hlast : s.ea n ≤ 0xFFF) :
    ∃ m, s.storeAtI i bs = .next (s.setMem m) ∧
      (s.mem.wf = true → ∀ k ≤ n, m.get (s.ea k) = bs.getD k 0) ∧
      ∀ a, a < s.ea 0 ∨ s.ea n < a → m.get a = s.mem.get a := by
  have hend : s.ea 0 + bs.length ≤ 4096 := hlen ▸ Nat.succ_le_succ hlast
  rcases s.storeAtI_cases i (List.ne_nil_of_length_eq_add_one hlen) with ⟨_, he⟩ | ⟨hlt, _⟩
  · exact ⟨_, he, fun hm k hk => Memory.get_fill_covered hm hend (hlen ▸ Nat.lt_succ_of_le hk),
      fun a ha => Memory.get_fill_other (hlen ▸ ha)⟩
  · exact absurd hend (Nat.not_le.mpr hlt)

/-- A store of n + 1 bytes at I whose last address does not exist raises (R224). -/
theorem State.storeAtI_raises {bs : List Byte} {n : Nat} (i : Instr) (hlen : bs.length = n + 1)
    (hlast : 0xFFF < s.ea n) :
    Raises (s.storeAtI i bs) (.addressOutOfRange (firstOffending (s.ea 0))) (encode i) (s.pc - 2) := by
  have hend : 4096 < s.ea 0 + bs.length := hlen ▸ Nat.succ_lt_succ hlast
  rcases s.storeAtI_cases i (List.ne_nil_of_length_eq_add_one hlen) with ⟨hle, _⟩ | ⟨_, he⟩
  · exact absurd hle (Nat.not_le.mpr hend)
  · rw [he, firstOffending_eq]
    exact raiseIn_raises _ _ s

/-- A block load whose last address does not exist raises (R224). -/
theorem execLoadRegs_raises {x : Nib} (hlast : 0xFFF < s.ea x.toNat) :
    Raises (execLoadRegs x s) (.addressOutOfRange (firstOffending (s.ea 0))) (encode (.loadRegs x)) (s.pc - 2) := by
  rcases execLoadRegs_cases x s with ⟨hle, _⟩ | ⟨_, he⟩
  · exact absurd hle (Nat.not_le.mpr hlast)
  · rw [he]
    exact raiseIn_raises _ _ s

/-- The registers after the bytes read are loaded from V0 on (R206). -/
theorem State.reg_loadRegsFrom {x k : Nib} {bs : List Byte} (h : s.mem.readBytes (s.ea 0) (x.toNat + 1) = .ok bs) :
    (s.loadRegsFrom 0 bs).reg k = if k.toNat ≤ x.toNat then s.mem.get (s.ea k.toNat) else s.reg k := by
  rw [State.reg, State.loadRegsFrom_v k.isLt, if_pos (Nat.zero_le _), Nat.sub_zero]
  split
  next hk => exact Memory.readBytes_getD h (Nat.lt_succ_of_le hk)
  next hk =>
    have hlen := Memory.readBytes_length h
    exact List.getD_eq_default _ _ (by omega)

end

/-- Settles O54: each form moves one byte and writes nothing else. -/
theorem timerMoves : Obligations.TimerMoves := by
  intro x s
  exact ⟨⟨packXB_fifteen_toNat x 0x07, packXB_fifteen_toNat x 0x15, packXB_fifteen_toNat x 0x18⟩,
    ⟨_, rfl, s.reg_setReg_same x s.dt, fun _ => State.reg_setReg_other, s.setReg_frame x s.dt⟩,
    ⟨_, rfl, rfl, rfl⟩, ⟨_, rfl, rfl, rfl⟩⟩

/-- Settles O47: I becomes the glyph's address and nothing else is written. -/
theorem fontIndexPointsAtTheGlyph : Obligations.FontIndexPointsAtTheGlyph :=
  fun x s => ⟨packXB_fifteen_toNat x 0x29, _, rfl, glyphAddress_toNat (s.reg x), rfl⟩

/-- Settles O55: a store at I of the three digits. -/
theorem bcdStoresThreeDigits : Obligations.BcdStoresThreeDigits := by
  intro x s
  have hlen : (bcdDigits (s.reg x)).length = 2 + 1 := bcdDigits_length _
  refine ⟨packXB_fifteen_toNat x 0x33, fun hlast hm => ?_, State.storeAtI_raises _ hlen⟩
  obtain ⟨m, he, hdigit, hother⟩ := State.storeAtI_of_room (.ldB x) hlen hlast
  obtain ⟨hhundreds, htens, hones⟩ := bcdDigits_toNat (s.reg x)
  refine ⟨_, he, ?_, ?_, ?_, hother, rfl⟩ <;> rw [State.setMem_mem, hdigit hm _ (by decide)]
  · exact hhundreds
  · exact htens
  · exact hones

/-- Settles O56: a store at I of the registers up to VX. -/
theorem blockStoreWritesV0ToVx : Obligations.BlockStoreWritesV0ToVx := by
  intro x s
  have hlen := s.regsUpTo_length x
  refine ⟨packXB_fifteen_toNat x 0x55, fun hlast hm => ?_, State.storeAtI_raises _ hlen⟩
  obtain ⟨m, he, hstored, hother⟩ := State.storeAtI_of_room (.storeRegs x) hlen hlast
  exact ⟨_, he, fun k hk => (hstored hm _ hk).trans (State.regsUpTo_getD hk), hother, rfl⟩

/-- Settles O57: a load of the bytes read from I on. -/
theorem blockLoadReadsV0ToVx : Obligations.BlockLoadReadsV0ToVx := by
  intro x s
  refine ⟨packXB_fifteen_toNat x 0x65, fun hlast => ?_, execLoadRegs_raises⟩
  rcases execLoadRegs_cases x s with ⟨_, bs, hr, he⟩ | ⟨hgt, _⟩
  · refine ⟨_, he, fun k hk => ?_, fun k hk => ?_, s.loadRegsFrom_frame 0 bs⟩ <;> rw [State.reg_loadRegsFrom hr]
    · exact if_pos hk
    · exact if_neg (Nat.not_le.mpr hk)
  · exact absurd hlast (Nat.not_le.mpr hgt)

end Sys2Proof.Machine

/-!
SUPPORT. What no instruction sees: ignored fields (30_encoding.md R79), and ST, `dirty`, the outputs and, DRW aside, the
display (60_exceptions.md R246, 47_display.md R182).
-/

namespace Sys2Proof.Machine

/-- Settles O5: no meaning but that of RET takes the ignored field, and RET reads it on an empty stack only. -/
theorem ignoredFieldsHaveNoEffect : Obligations.IgnoredFieldsHaveNoEffect := by
  intro x y u s
  refine ⟨rfl, rfl, rfl, rfl, rfl, fun hsp => ?_⟩
  rcases s.pop_cases with ⟨hempty, _⟩ | ⟨n, hn, hentry, _⟩
  · exact absurd hempty hsp
  · exact (execRet_of_entry u hn hentry).trans (execRet_of_entry 0 hn hentry).symm

/-- The state with another ST, `dirty`, display and outputs: what the core shows and sounds, and otherwise ignores. -/
def State.withShown (s : State) (st : Byte) (dirty : Bool) (disp : Display) (outputs : Outputs) : State :=
  { s with st := st, dirty := dirty, disp := disp, outputs := outputs }

/-- Two next states that differ in ST, `dirty`, the display and the outputs at most. -/
def EqButShown : Result → Result → Prop
  | .next t, .next t' => t'.withShown t.st t.dirty t.disp t.outputs = t
  | _, _ => False

section

variable (s : State) (st : Byte) (dirty : Bool) (disp : Display) (outputs : Outputs)

theorem State.withShown_mem : (s.withShown st dirty disp outputs).mem = s.mem := rfl

theorem State.withShown_keys : (s.withShown st dirty disp outputs).keys = s.keys := rfl

theorem State.withShown_ea (k : Nat) : (s.withShown st dirty disp outputs).ea k = s.ea k := rfl

theorem State.skipIf_eqButShown (c : Bool) :
    EqButShown (.next (s.skipIf c)) (.next ((s.withShown st dirty disp outputs).skipIf c)) := by
  cases c <;> rfl

theorem State.loadRegsFrom_withShown (k : Nat) (bs : List Byte) :
    (s.withShown st dirty disp outputs).loadRegsFrom k bs = (s.loadRegsFrom k bs).withShown st dirty disp outputs := by
  induction bs generalizing s k with
  | nil => rfl
  | cons b bs ih => exact ih { s with v := s.v.setIfInBounds k b } (k + 1)

theorem State.storeAtI_eqButShown (i : Instr) (bs : List Byte) :
    EqButShown (s.storeAtI i bs) ((s.withShown st dirty disp outputs).storeAtI i bs) := by
  simp only [State.storeAtI, State.withShown_mem, State.withShown_ea]
  cases s.mem.writeBytes (s.ea 0) bs <;> rfl

theorem execLoadRegs_eqButShown (x : Nib) :
    EqButShown (execLoadRegs x s) (execLoadRegs x (s.withShown st dirty disp outputs)) := by
  simp only [execLoadRegs, State.withShown_mem, State.withShown_ea, State.loadRegsFrom_withShown]
  cases s.mem.readBytes (s.ea 0) (x.toNat + 1) <;> rfl

/-- DRW reads the display, so only the rest is replaced. -/
theorem execDrw_eqButShown (x y n : Nib) :
    EqButShown (execDrw x y n s) (execDrw x y n (s.withShown st dirty s.disp outputs)) := by
  simp only [execDrw, State.withShown_mem, State.withShown_ea]
  cases s.mem.readBytes (s.ea 0) n.toNat <;> rfl

theorem execLdVxK_eqButShown (x : Nib) :
    EqButShown (execLdVxK x s) (execLdVxK x (s.withShown st dirty disp outputs)) := by
  simp only [execLdVxK, State.withShown_keys]
  cases lowestKey s.keys <;> rfl

theorem execCall_eqButShown (nnn : Addr) :
    EqButShown (execCall nnn s) (execCall nnn (s.withShown st dirty disp outputs)) := by
  rcases Nat.lt_or_ge s.sp.val 16 with hroom | hfull
  · rw [execCall_of_room nnn hroom, execCall_of_room (s := s.withShown st dirty disp outputs) nnn hroom]
    rfl
  · have hsp : s.sp.val = 16 := by omega
    rw [execCall_of_full nnn hsp, execCall_of_full (s := s.withShown st dirty disp outputs) nnn hsp]
    rfl

theorem execRet_eqButShown (u : Nib) :
    EqButShown (execRet u s) (execRet u (s.withShown st dirty disp outputs)) := by
  rcases s.pop_cases with ⟨hempty, _⟩ | ⟨n, hn, hsp, _⟩
  · have hsp : s.sp.val = 0 := congrArg Fin.val hempty
    rw [execRet_of_empty u hsp, execRet_of_empty (s := s.withShown st dirty disp outputs) u hsp]
    rfl
  · rw [execRet_of_entry u hn hsp, execRet_of_entry (s := s.withShown st dirty disp outputs) u hn hsp]
    rfl

/-- An instruction does the same to everything else whatever ST, `dirty`, the outputs and, DRW aside, the display are
(R246, R182 (d)). A fatal outcome is included, since the model draws its free values by the counter of steps (log 7);
the statement below claims only FAULT of it. -/
theorem exec_eqButShown {i : Instr} (hdisp : (∀ x y n, i ≠ .drw x y n) ∨ disp = s.disp) :
    EqButShown (exec i s) (exec i (s.withShown st dirty disp outputs)) := by
  cases i with
  | drw x y n =>
    obtain rfl := hdisp.resolve_left fun h => h x y n rfl
    exact execDrw_eqButShown s st dirty outputs x y n
  | call nnn => exact execCall_eqButShown s st dirty disp outputs nnn
  | ret u => exact execRet_eqButShown s st dirty disp outputs u
  | ldVxK x => exact execLdVxK_eqButShown s st dirty disp outputs x
  | loadRegs x => exact execLoadRegs_eqButShown s st dirty disp outputs x
  | ldB | storeRegs => exact State.storeAtI_eqButShown s st dirty disp outputs _ _
  | seImm | sneImm | seReg | sneReg | skp | sknp =>
    exact State.skipIf_eqButShown s st dirty disp outputs _
  | _ => rfl

end

/-- Settles O32: the two outcomes differ in the fields replaced at most, so neither in FAULT nor in the rest. -/
theorem soundAndDisplayAreWriteOnly : Obligations.SoundAndDisplayAreWriteOnly := by
  intro i s t st dirty disp outputs h hdisp
  obtain ⟨t', ht'⟩ := exec_answers (s.withShown st dirty disp outputs) i
  have hshown : t'.withShown t.st t.dirty t.disp t.outputs = t := by
    simpa only [h, ht', EqButShown] using exec_eqButShown s st dirty disp outputs hdisp
  exact ⟨t', ht', (congrArg State.fault hshown :), fun _ => hshown⟩

end Sys2Proof.Machine
